-- ==== Sys2Proof/Word.lean ====
section
/-! DEFINITION. The word types of the core: bytes (registers, cells, operands) and the 9-bit program counter.
00_scope.md R5 and R7 give the widths and `u8`. -/

namespace Sys2Proof

/-- A data byte: a register, a memory cell or an instruction byte (00_scope.md R5: `XLEN` = 8, cell width 8). -/
abbrev Byte := BitVec 8

/-- A 9-bit value: the program counter and the fault record's `fault_pc` and `fault_info` (10_state.md R12, R19). -/
abbrev Word9 := BitVec 9

/-- `u8(v)`, the low 8 bits of a natural number (00_scope.md R7). -/
def u8 (n : Nat) : Byte := BitVec.ofNat 8 n

/-- `zext_9(v)`, a byte as a 9-bit value (00_scope.md R7). -/
def zext9 (b : Byte) : Word9 := BitVec.ofNat 9 b.toNat

end Sys2Proof
end

