-- ==== Sys2Proof/Config.lean ====
section
/-! DEFINITION. What an implementation fixes: the constants and the model arguments of 00_scope.md R5, and the closed
list of mnemonics and formats (00_scope.md R1, 30_encoding.md R39). The spec leaves no value free, so there is no
opaque constant here; the opcode byte values stand in one table of Decode.lean (log 2). -/

namespace Sys2Proof

/-- `NREGS` (00_scope.md R5). -/
def Config.nregs : Nat := 8

/-- A register index, 0 to 7 (10_state.md R10). -/
abbrev RegIx := Fin 8

/-- `SP_INDEX`: the stack pointer is register 7 (00_scope.md R5, 10_state.md R11). -/
abbrev Config.spIndex : RegIx := 7

/-- The largest value of `icount`, 2^32 - 1 (00_scope.md R5, 10_state.md R20). -/
def Config.icountMax : Nat := 4294967295

/-- `MEM_SIZE`: this hardware has 256 bytes, and a model may take 255 (00_scope.md R5). -/
inductive MemSize where
  | bytes256
  | bytes255
deriving DecidableEq, Repr

/-- The number of bytes of memory. -/
def MemSize.toNat : MemSize → Nat
  | .bytes256 => 256
  | .bytes255 => 255

/-- The model arguments of 00_scope.md R5. They are fixed for a run and no step changes them (log 1). -/
structure Params where
  memSize   : MemSize
  spReset   : Byte
  stepLimit : Option Nat
deriving DecidableEq, Repr

/-- 00_scope.md R5: `MEM_SIZE` = 256 and `SP_RESET` = 0. DESIGN CHOICE: no `STEP_LIMIT`; the spec names no default
for it (log 1). -/
def Config.defaultParams : Params := { memSize := .bytes256, spReset := 0#8, stepLimit := none }

/-- The closed set of 13 mnemonics, in the order of the source's table (00_scope.md R1, 30_encoding.md R42). -/
inductive Op where
  | hlt | ldi | prn | mul | add | push | pop | call | ret | cmp | jeq | jne | jmp
deriving DecidableEq, Repr

/-- The four formats of 30_encoding.md R39. -/
inductive Format where
  | z | r | rr | ri
deriving DecidableEq, Repr

end Sys2Proof
end

