-- ==== Sys2Proof/Syntax.lean ====
section
/-! DEFINITION. The instructions as syntax: one constructor per row of spec/opcode_table.json, in the table's order.
Operands are the whole operand bytes (30_encoding.md R39: no byte is split into sub-fields). -/

namespace Sys2Proof

/-- An instruction with its operand bytes, in encoding order (30_encoding.md R39, R47). A register operand is the raw
index byte; whether it names a register is checked by `Instr.wellFormed` and by the machine (30_encoding.md R40). -/
inductive Instr where
  | hlt
  | ldi (r imm : Byte)
  | prn (r : Byte)
  | mul (rA rB : Byte)
  | add (rA rB : Byte)
  | push (r : Byte)
  | pop (r : Byte)
  | call (r : Byte)
  | ret
  | cmp (rA rB : Byte)
  | jeq (r : Byte)
  | jne (r : Byte)
  | jmp (r : Byte)
deriving DecidableEq, Repr

/-- The instruction's mnemonic. -/
def Instr.op : Instr → Op
  | .hlt => .hlt
  | .ldi _ _ => .ldi
  | .prn _ => .prn
  | .mul _ _ => .mul
  | .add _ _ => .add
  | .push _ => .push
  | .pop _ => .pop
  | .call _ => .call
  | .ret => .ret
  | .cmp _ _ => .cmp
  | .jeq _ => .jeq
  | .jne _ => .jne
  | .jmp _ => .jmp

/-- The register operand bytes, in the order they are checked (40_engine.md R55). LDI's second byte is an immediate. -/
def Instr.regOperands : Instr → List Byte
  | .hlt => []
  | .ldi r _ => [r]
  | .prn r => [r]
  | .mul rA rB => [rA, rB]
  | .add rA rB => [rA, rB]
  | .push r => [r]
  | .pop r => [r]
  | .call r => [r]
  | .ret => []
  | .cmp rA rB => [rA, rB]
  | .jeq r => [r]
  | .jne r => [r]
  | .jmp r => [r]

end Sys2Proof
end

