-- ==== Sys2Proof/WellFormed.lean ====
section
/-! DEFINITION. Well-formed instructions: every register operand names one of the 8 registers (30_encoding.md R40,
40_engine.md R55). There is no other check: every immediate is legal (R41). An ill-formed instruction is not refused
by the machine; it raises OutOfBoundsAccess(REGISTER). -/

namespace Sys2Proof

/-- Only indices 0 to 7 name a register (30_encoding.md R40). -/
def regByteOk (b : Byte) : Bool := decide (b.toNat < Config.nregs)

/-- Every register operand of the instruction names a register. -/
def Instr.wellFormed (i : Instr) : Bool := i.regOperands.all regByteOk

/-- The proposition `Instr.wellFormed` decides. -/
abbrev Instr.WellFormed (i : Instr) : Prop := i.wellFormed = true

end Sys2Proof
end

