-- ==== Sys2Proof/Decode.lean ====
section
/-! DEFINITION. Instruction encoding: the opcode map, the decoder, the encoder and the assembly notation
(30_encoding.md). The opcode values stand once, in `opcodeOf`; the decoder and the encoder both read them there. -/

namespace Sys2Proof

/-- The opcode byte of each instruction (30_encoding.md R42). PRESUMED: all but RET's are the spec's
general-knowledge values, U1 and D18 (log 2). -/
def opcodeOf : Op → Byte
  | .hlt => 0x01#8
  | .ldi => 0x82#8
  | .prn => 0x47#8
  | .mul => 0xA2#8
  | .add => 0xA0#8
  | .push => 0x45#8
  | .pop => 0x46#8
  | .call => 0x50#8
  | .ret => 0x11#8
  | .cmp => 0xA7#8
  | .jeq => 0x55#8
  | .jne => 0x56#8
  | .jmp => 0x54#8

/-- The 13 mnemonics in the source's table order (30_encoding.md R42, R43). -/
def opTable : List Op :=
  [.hlt, .ldi, .prn, .mul, .add, .push, .pop, .call, .ret, .cmp, .jeq, .jne, .jmp]

/-- The opcode match: exact equality of the whole byte, in table order (30_encoding.md R43). -/
def opOfByte (b : Byte) : Option Op := opTable.find? (fun o => opcodeOf o == b)

/-- The format of each instruction (30_encoding.md R39). -/
def Op.format : Op → Format
  | .hlt => .z
  | .ldi => .ri
  | .prn => .r
  | .mul => .rr
  | .add => .rr
  | .push => .r
  | .pop => .r
  | .call => .r
  | .ret => .z
  | .cmp => .rr
  | .jeq => .r
  | .jne => .r
  | .jmp => .r

/-- The number `n` of operand bytes of a format (30_encoding.md R39). -/
def Format.operandCount : Format → Nat
  | .z => 0
  | .r => 1
  | .rr => 2
  | .ri => 2

/-- The number of operand bytes, fixed by the opcode (30_encoding.md R39, R46). -/
def Op.operandCount (o : Op) : Nat := o.format.operandCount

/-- The instruction's length in bytes, 1 + `n` (30_encoding.md R46). -/
def Op.length (o : Op) : Nat := 1 + o.operandCount

/-- What a matched opcode still needs before it is an instruction: no byte, one, or two (40_engine.md R54). -/
inductive Form where
  | whole (i : Instr)
  | needs1 (k : Byte → Instr)
  | needs2 (k : Byte → Byte → Instr)

/-- The instruction an opcode starts, with its operands in encoding order (30_encoding.md R39). -/
def Op.form : Op → Form
  | .hlt => .whole .hlt
  | .ldi => .needs2 .ldi
  | .prn => .needs1 .prn
  | .mul => .needs2 .mul
  | .add => .needs2 .add
  | .push => .needs1 .push
  | .pop => .needs1 .pop
  | .call => .needs1 .call
  | .ret => .whole .ret
  | .cmp => .needs2 .cmp
  | .jeq => .needs1 .jeq
  | .jne => .needs1 .jne
  | .jmp => .needs1 .jmp

/-- Why a list of bytes does not start with an instruction. -/
inductive DecodeError where
  /-- There is no byte at all: the machine's FETCH case (40_engine.md R52). -/
  | noOpcode
  /-- The opcode matches no entry (30_encoding.md R43). -/
  | illegalOpcode (op : Byte)
  /-- The operand byte number `n` (1 or 2) is missing: the machine's OPERAND case (40_engine.md R54). -/
  | missingOperand (op : Byte) (n : Nat)
deriving DecidableEq, Repr

/-- The decoder: the first instruction of a list of bytes, with the bytes after it, or why there is none
(30_encoding.md R39, R43, R46). A register operand of 8 or more is decoded as it stands; the machine's validation
stops it (40_engine.md R55). -/
def decode : List Byte → Except DecodeError (Instr × List Byte)
  | [] => .error .noOpcode
  | op :: rest =>
    match opOfByte op with
    | none => .error (.illegalOpcode op)
    | some o =>
      match o.form, rest with
      | .whole i, rest => .ok (i, rest)
      | .needs1 k, b1 :: rest => .ok (k b1, rest)
      | .needs1 _, [] => .error (.missingOperand op 1)
      | .needs2 k, b1 :: b2 :: rest => .ok (k b1 b2, rest)
      | .needs2 _, [_] => .error (.missingOperand op 2)
      | .needs2 _, [] => .error (.missingOperand op 1)

/-- The operand bytes in encoding order (30_encoding.md R39). -/
def Instr.operandBytes : Instr → List Byte
  | .hlt => []
  | .ldi r imm => [r, imm]
  | .prn r => [r]
  | .mul rA rB => [rA, rB]
  | .add rA rB => [rA, rB]
  | .push r => [r]
  | .pop r => [r]
  | .call r => [r]
  | .ret => []
  | .cmp rA rB => [rA, rB]
  | .jeq r => [r]
  | .jne r => [r]
  | .jmp r => [r]

/-- The encoder: the opcode byte, then the operand bytes (30_encoding.md R39, R42). -/
def encode (i : Instr) : List Byte := opcodeOf i.op :: i.operandBytes

/-- The three bytes that an instruction word gives, lowest address first; bits of `w` at `nbits` and above are 0
(the numbering of spec/opcode_table.json). -/
def tableWordBytes (nbits w : Nat) : List Byte :=
  [u8 (w % 2 ^ nbits), u8 (w % 2 ^ nbits / 256), u8 (w % 2 ^ nbits / 65536)]

/-- The instruction the decoder reads from an opcode-table word (the host's interface). -/
def decodeTableWord (nbits w : Nat) : Option Instr :=
  match decode (tableWordBytes nbits w) with
  | .ok (i, _) => some i
  | .error _ => none

/-- An operand as assembly writes it: a register byte or an immediate byte (30_encoding.md R47). -/
inductive AsmOperand where
  | reg (b : Byte)
  | imm (b : Byte)
deriving DecidableEq, Repr

/-- One instruction in assembly: its mnemonic and its operands in encoding order (30_encoding.md R47). -/
structure AsmLine where
  mnemonic : String
  operands : List AsmOperand
deriving DecidableEq, Repr

/-- The upper-case mnemonics of 30_encoding.md R42 and R47. -/
def Op.mnemonic : Op → String
  | .hlt => "HLT"
  | .ldi => "LDI"
  | .prn => "PRN"
  | .mul => "MUL"
  | .add => "ADD"
  | .push => "PUSH"
  | .pop => "POP"
  | .call => "CALL"
  | .ret => "RET"
  | .cmp => "CMP"
  | .jeq => "JEQ"
  | .jne => "JNE"
  | .jmp => "JMP"

/-- The assembly form of an instruction (30_encoding.md R47): labels and pseudo-instructions do not occur in it. -/
def Instr.assembly (i : Instr) : AsmLine :=
  { mnemonic := i.op.mnemonic
    operands :=
      match i with
      | .ldi r imm => [.reg r, .imm imm]
      | _ => i.operandBytes.map .reg }

/-- The text of one operand: `R0` to `R7`, or a decimal immediate (30_encoding.md R47). -/
def AsmOperand.text : AsmOperand → String
  | .reg b => "R" ++ toString b.toNat
  | .imm b => toString b.toNat

/-- The text of one line: the mnemonic, a space, the operands separated by a comma (30_encoding.md R47). -/
def AsmLine.text (l : AsmLine) : String :=
  match l.operands with
  | [] => l.mnemonic
  | os => l.mnemonic ++ " " ++ ",".intercalate (os.map AsmOperand.text)

end Sys2Proof
end

