-- ==== Sys2Proof/Machine/State.lean ====
section
/-! DEFINITION. The machine's state as plain data (10_state.md), the levels on its input ports
(70_reset_and_hazards.md R97), the state after reset (10_state.md R22), and the reasons a step can stop. -/

namespace Sys2Proof.Machine

/-- Memory: the cells that are not 0, addresses strictly rising; an unlisted cell reads 0, its reset value
(10_state.md R16, R22). -/
abbrev Memory := List Host.Cell

/-- The canonical form of a memory: strictly rising addresses, no cell equal to what an unlisted address reads as. -/
abbrev Memory.wf (m : Memory) : Prop :=
  m.Pairwise (fun c d => c.1 < d.1) ∧ ∀ c ∈ m, c.2 ≠ 0#8

/-- The run states (10_state.md R18). -/
inductive RunState where
  | idle | running | halted | faulted | stopped
deriving DecidableEq, Repr

/-- The flags FL: Less-Than, Greater-Than, Equal (10_state.md R13). -/
structure Flags where
  l : Bool
  g : Bool
  e : Bool
deriving DecidableEq, Repr

/-- The kinds of OutOfBoundsAccess (10_state.md R19, 60_exceptions.md R81). -/
inductive AccessKind where
  | fetch | operand | register | stack | retaddr
deriving DecidableEq, Repr

/-- The faults of the core, which are next states of the machine (60_exceptions.md R81 to R84). `info` is
`fault_info`. -/
inductive FaultCause where
  | illegalInstruction
  | outOfBoundsAccess (kind : AccessKind) (info : Word9)
  | unsupportedOperation
deriving DecidableEq, Repr

/-- The fault record, with the widths of 10_state.md R19. -/
structure FaultRecord where
  code   : BitVec 2
  kind   : BitVec 3
  pc     : Word9
  opcode : Byte
  info   : Word9
deriving DecidableEq, Repr

/-- The record with every field 0: no fault (10_state.md R19, R22). -/
def FaultRecord.none : FaultRecord := { code := 0#2, kind := 0#3, pc := 0#9, opcode := 0#8, info := 0#9 }

/-- The levels of the core's input ports at one rising edge (70_reset_and_hazards.md R97). -/
structure Pins where
  rst      : Bool
  ldWe     : Bool
  ldAddr   : Byte
  ldData   : Byte
  start    : Bool
  outReady : Bool
deriving DecidableEq, Repr

/-- A host that asks for nothing and accepts every PRN value. DESIGN CHOICE (log 5): the levels before the host
drives any. -/
def Pins.quiet : Pins :=
  { rst := false, ldWe := false, ldAddr := 0#8, ldData := 0#8, start := false, outReady := true }

/-- The state of the machine. The fields up to `ldErr` are the spec's (10_state.md R10 to R21, 70_reset_and_hazards.md
R97); `params` are its model arguments (00_scope.md R5, log 1); `pins` and `inputs` are the model's own: the host's
levels at the latest edge and at the edges to come (log 4). -/
structure State where
  regs       : Vector Byte 8
  pc         : Word9
  flags      : Flags
  mem        : Memory
  runState   : RunState
  fault      : FaultRecord
  icount     : BitVec 32
  outPending : Bool
  trace      : List Byte
  ldErr      : Bool
  params     : Params
  pins       : Pins
  inputs     : List Pins
deriving DecidableEq, Repr

/-- The reasons the machine stops outside its own states: none. Every fault of the spec is a next state in run state
FAULTED, and a terminal or idle machine lets a clock edge pass (log 9), so no constructor is needed and no execution
ends here (safe). -/
inductive Fault where
deriving DecidableEq, Repr

/-- Why an instruction has no meaning. -/
inductive Refusal where
  /-- An arm of `exec` that has no meaning yet; every instruction has its meaning, so nobody raises it (safe). -/
  | notModelled (mnemonic : String)
deriving DecidableEq, Repr

/-- The outcome of a step of this machine. -/
abbrev Result := Host.Outcome State Fault Refusal

/-- The reset value of the register file: 0, and `SP_RESET` in x[7] (10_state.md R22). -/
def resetRegs (p : Params) : Vector Byte 8 := #v[0#8, 0#8, 0#8, 0#8, 0#8, 0#8, 0#8, p.spReset]

/-- Every piece of state at its reset value (10_state.md R22), for any model arguments; the host drives nothing
(log 4, log 5). -/
def State.resetWith (p : Params) : State :=
  { regs       := resetRegs p
    pc         := 0#9
    flags      := { l := false, g := false, e := false }
    mem        := []
    runState   := .idle
    fault      := FaultRecord.none
    icount     := 0#32
    outPending := false
    trace      := []
    ldErr      := false
    params     := p
    pins       := Pins.quiet
    inputs     := [] }

/-- The machine right after reset, with the model arguments of 00_scope.md R5 (log 1). -/
def State.reset : State := State.resetWith Config.defaultParams

end Sys2Proof.Machine
end

