-- ==== Sys2Proof/Machine/Ops.lean ====
section
/-! DEFINITION. The named operations over memory, registers and faults that every instruction is written with
(00_scope.md R8, R9; 20_memory.md R24; 60_exceptions.md R86; 40_engine.md R56, R57). -/

namespace Sys2Proof.Machine

/-- The byte of cell `a`; an unlisted cell reads 0 (10_state.md R22). The bound is `State.memRead`'s to check. -/
def Memory.read : Memory → Nat → Byte
  | [], _ => 0#8
  | c :: rest, a => if c.1 = a then c.2 else Memory.read rest a

/-- A memory without cell `a`, which then reads 0. -/
def Memory.erase (m : Memory) (a : Nat) : Memory := m.filter (fun c => c.1 != a)

/-- Places a cell before the first one of a higher address. -/
def Memory.place (c : Host.Cell) : Memory → Memory
  | [] => [c]
  | d :: rest => if c.1 < d.1 then c :: d :: rest else d :: Memory.place c rest

/-- `mem[a] <- v` (20_memory.md R24). Writing what an unlisted cell reads as removes the cell. -/
def Memory.write (m : Memory) (a : Nat) (v : Byte) : Memory :=
  if v = 0#8 then m.erase a else Memory.place (a, v) (m.erase a)

/-- `MEM_SIZE` of this run. -/
def State.memSize (s : State) : Nat := s.params.memSize.toNat

/-- `x[i]` (00_scope.md R8). -/
def State.reg (s : State) (i : RegIx) : Byte := s.regs[i]

/-- `x[i] <- v` (00_scope.md R8). -/
def State.setReg (s : State) (i : RegIx) (v : Byte) : State := { s with regs := s.regs.set i v }

/-- SP is another name for x[7] (00_scope.md R8, 10_state.md R11). -/
def State.sp (s : State) : Byte := s.reg Config.spIndex

/-- `SP <- v` (10_state.md R11). -/
def State.setSp (s : State) (v : Byte) : State := s.setReg Config.spIndex v

/-- Replaces the memory; only the memory operations use it. -/
def State.setMem (s : State) (m : Memory) : State := { s with mem := m }

/-- Writes FL (41_alu.md R62). -/
def State.setFlags (s : State) (f : Flags) : State := { s with flags := f }

/-- Enters a run state (40_engine.md R49). -/
def State.setRun (s : State) (r : RunState) : State := { s with runState := r }

/-- `pc <- target` (00_scope.md R8). -/
def State.setPc (s : State) (target : Word9) : State := { s with pc := target }

/-- The sequential next pc of an instruction with `n` operand bytes, `pc + 1 + n` (40_engine.md R56). -/
def State.seqPc (s : State) (n : Nat) : Word9 := s.pc + BitVec.ofNat 9 (1 + n)

/-- `MemRead(a, 1)` (20_memory.md R24): the kind is the caller's. -/
def State.memRead (s : State) (kind : AccessKind) (a : Nat) : Except FaultCause Byte :=
  if a < s.memSize then .ok (s.mem.read a) else .error (.outOfBoundsAccess kind (BitVec.ofNat 9 a))

/-- `MemWrite(a, 1, v)` (20_memory.md R24). -/
def State.memWrite (s : State) (kind : AccessKind) (a : Nat) (v : Byte) : Except FaultCause State :=
  if a < s.memSize then .ok (s.setMem (s.mem.write a v))
  else .error (.outOfBoundsAccess kind (BitVec.ofNat 9 a))

/-- `fault_kind` of an OutOfBoundsAccess (60_exceptions.md R81). -/
def AccessKind.code : AccessKind → BitVec 3
  | .fetch => 0#3
  | .operand => 1#3
  | .register => 2#3
  | .stack => 3#3
  | .retaddr => 4#3

/-- The record a fault leaves (60_exceptions.md R81 to R84): `pc` is where the instruction began, `opcode` the fetched
byte, or 0 for a FETCH fault. -/
def FaultCause.record (c : FaultCause) (pc : Word9) (opcode : Byte) : FaultRecord :=
  match c with
  | .illegalInstruction => { code := 1#2, kind := 0#3, pc := pc, opcode := opcode, info := 0#9 }
  | .outOfBoundsAccess k info => { code := 2#2, kind := k.code, pc := pc, opcode := opcode, info := info }
  | .unsupportedOperation => { code := 3#2, kind := 0#3, pc := pc, opcode := opcode, info := 0#9 }

/-- Taking a fault, the core's one exception entry (60_exceptions.md R86): run state FAULTED, the record written,
nothing else changed. `s` is the state in which the instruction began. There is no return from it (R88). -/
def State.raise (s : State) (c : FaultCause) (opcode : Byte) : State :=
  { s with runState := .faulted, fault := c.record s.pc opcode }

/-- `min(icount + 1, 2^32 - 1)` (40_engine.md R50, R57). -/
def icountNext (n : BitVec 32) : BitVec 32 := BitVec.ofNat 32 (min (n.toNat + 1) Config.icountMax)

/-- Retirement: the instruction counts (40_engine.md R57). -/
def State.retire (s : State) : State := { s with icount := icountNext s.icount }

/-- One instruction commits all its writes or none (00_scope.md R9; 40_engine.md R57): a handler that ends retires its
state, and one that raises leaves the state before it with the fault entered. -/
def complete (o : Op) (s : State) (handler : Except FaultCause State) : Result :=
  match handler with
  | .ok t => .next t.retire
  | .error c => .next (s.raise c (opcodeOf o))

end Sys2Proof.Machine
end

