-- ==== Sys2Proof/Machine/Operands.lean ====
section
/-! DEFINITION. Operand decoding: the register operand and the immediate (30_encoding.md R40, R41). -/

namespace Sys2Proof.Machine

/-- The byte that names register `i`. -/
def regByte (i : RegIx) : Byte := BitVec.ofNat 8 i.val

/-- `reg(b)`: a byte of 8 or more raises OutOfBoundsAccess(REGISTER, b) (30_encoding.md R40). -/
def regIndex (b : Byte) : Except FaultCause RegIx :=
  if h : b.toNat < 8 then .ok ⟨b.toNat, h⟩ else .error (.outOfBoundsAccess .register (zext9 b))

/-- The immediate operand: the whole byte, unsigned and unchanged (30_encoding.md R41). -/
def immediate (b : Byte) : Byte := b

end Sys2Proof.Machine
end

