-- ==== Sys2Proof/Machine/Flags.lean ====
section
/-! DEFINITION. The one flag computation of the core: CMP's three-way unsigned comparison (41_alu.md R66). -/

namespace Sys2Proof.Machine

/-- Exactly one of L, G, E, from an unsigned comparison of two bytes (41_alu.md R66). -/
def compareFlags (a b : Byte) : Flags :=
  if a.toNat < b.toNat then { l := true, g := false, e := false }
  else if b.toNat < a.toNat then { l := false, g := true, e := false }
  else { l := false, g := false, e := true }

end Sys2Proof.Machine
end

