-- ==== Sys2Proof/Machine/Alu.lean ====
section
/-! DEFINITION. The ALU and its three instructions (41_alu.md R62 to R66). -/

namespace Sys2Proof.Machine

/-- The ALU's outputs: a result with `rf_we`, or flags with `fl_we` (41_alu.md R62). -/
inductive AluOut where
  | result (v : Byte)
  | flags (f : Flags)
deriving DecidableEq, Repr

/-- The ALU: select 00 adds, 01 multiplies, 10 compares, and 11 raises UnsupportedOperation (41_alu.md R62). Sums and
products are exact, then cut to their low 8 bits (R63). -/
def alu (sel : BitVec 2) (a b : Byte) : Except FaultCause AluOut :=
  if sel = 0b00#2 then .ok (.result (u8 (a.toNat + b.toNat)))
  else if sel = 0b01#2 then .ok (.result (u8 (a.toNat * b.toNat)))
  else if sel = 0b10#2 then .ok (.flags (compareFlags a b))
  else .error .unsupportedOperation

/-- Writes the ALU's output: `result` into x[rA], or FL (41_alu.md R62). -/
def State.writeAlu (s : State) (rA : RegIx) : AluOut → State
  | .result v => s.setReg rA v
  | .flags f => s.setFlags f

/-- The handler of a format RR instruction with ALU select `sel`: both operands are checked in order, both are read
before the write (40_engine.md R55, 41_alu.md R64). -/
def aluHandler (sel : BitVec 2) (rA rB : Byte) (s : State) : Except FaultCause State := do
  let iA ← regIndex rA
  let iB ← regIndex rB
  let out ← alu sel (s.reg iA) (s.reg iB)
  return (s.writeAlu iA out).setPc (s.seqPc 2)

/-- MUL (41_alu.md R65). -/
def execMul (rA rB : Byte) (s : State) : Result := complete .mul s (aluHandler 0b01#2 rA rB s)

/-- ADD (41_alu.md R64). -/
def execAdd (rA rB : Byte) (s : State) : Result := complete .add s (aluHandler 0b00#2 rA rB s)

/-- CMP (41_alu.md R66). -/
def execCmp (rA rB : Byte) (s : State) : Result := complete .cmp s (aluHandler 0b10#2 rA rB s)

end Sys2Proof.Machine
end

