-- ==== Sys2Proof/Machine/Branch.lean ====
section
/-! DEFINITION. The conditional branch dispatcher and JMP, JEQ, JNE (45_branch.md R77 to R80). -/

namespace Sys2Proof.Machine

/-- The jumps of the dispatcher (45_branch.md R77). -/
inductive Jump where
  | always | ifEqual | ifNotEqual
deriving DecidableEq, Repr

/-- The dispatcher: JMP always, JEQ on E, JNE on not E (45_branch.md R77). -/
def Jump.taken : Jump → Flags → Bool
  | .always, _ => true
  | .ifEqual, f => f.e
  | .ifNotEqual, f => !f.e

/-- A jump's handler: the register is checked taken or not; a taken jump goes to x[r], another to `pc + 2`
(45_branch.md R77, 40_engine.md R55). -/
def jumpHandler (j : Jump) (r : Byte) (s : State) : Except FaultCause State := do
  let i ← regIndex r
  return s.setPc (if j.taken s.flags then zext9 (s.reg i) else s.seqPc 1)

/-- JEQ (45_branch.md R79). -/
def execJeq (r : Byte) (s : State) : Result := complete .jeq s (jumpHandler .ifEqual r s)

/-- JNE (45_branch.md R80). -/
def execJne (r : Byte) (s : State) : Result := complete .jne s (jumpHandler .ifNotEqual r s)

/-- JMP (45_branch.md R78). -/
def execJmp (r : Byte) (s : State) : Result := complete .jmp s (jumpHandler .always r s)

end Sys2Proof.Machine
end

