-- ==== Sys2Proof/Machine/Stack.lean ====
section
/-! DEFINITION. The full-descending stack and its instructions PUSH and POP (43_stack.md R71 to R73). -/

namespace Sys2Proof.Machine

/-- The address a push stores to, `u8(SP - 1)` (43_stack.md R71, 20_memory.md R26). -/
def State.pushAddr (s : State) : Byte := s.sp - 1#8

/-- PUSH's handler: SP is decremented first, so `PUSH R7` stores the decremented SP (43_stack.md R72). -/
def pushHandler (r : Byte) (s : State) : Except FaultCause State := do
  let i ← regIndex r
  let s1 := s.setSp s.pushAddr
  let s2 ← s1.memWrite .stack s1.sp.toNat (s1.reg i)
  return s2.setPc (s.seqPc 1)

/-- PUSH (43_stack.md R72). -/
def execPush (r : Byte) (s : State) : Result := complete .push s (pushHandler r s)

/-- POP's handler: the register is written before SP is incremented, so `POP R7` ends with SP one above the popped
byte (43_stack.md R73). -/
def popHandler (r : Byte) (s : State) : Except FaultCause State := do
  let i ← regIndex r
  let v ← s.memRead .stack s.sp.toNat
  let s1 := s.setReg i v
  let s2 := s1.setSp (s1.sp + 1#8)
  return s2.setPc (s.seqPc 1)

/-- POP (43_stack.md R73). -/
def execPop (r : Byte) (s : State) : Result := complete .pop s (popHandler r s)

end Sys2Proof.Machine
end

