-- ==== Sys2Proof/Machine/Subroutine.lean ====
section
/-! DEFINITION. CALL and RET (44_subroutine.md R74 to R76). -/

namespace Sys2Proof.Machine

/-- The return address of a CALL at `pc`, exact (44_subroutine.md R74). -/
def State.returnAddr (s : State) : Nat := s.pc.toNat + 2

/-- CALL's handler (44_subroutine.md R74): a return address above 255 raises RETADDR; the target register is read after
SP is decremented, so `CALL R7` jumps to the decremented SP. -/
def callHandler (r : Byte) (s : State) : Except FaultCause State := do
  let i ← regIndex r
  if 255 < s.returnAddr then throw (.outOfBoundsAccess .retaddr (BitVec.ofNat 9 s.returnAddr))
  let s1 := s.setSp s.pushAddr
  let s2 ← s1.memWrite .stack s1.sp.toNat (u8 s.returnAddr)
  return s2.setPc (zext9 (s2.reg i))

/-- CALL (44_subroutine.md R74). -/
def execCall (r : Byte) (s : State) : Result := complete .call s (callHandler r s)

/-- RET's handler (44_subroutine.md R75). -/
def retHandler (s : State) : Except FaultCause State := do
  let t ← s.memRead .stack s.sp.toNat
  let s1 := s.setSp (s.sp + 1#8)
  return s1.setPc (zext9 t)

/-- RET (44_subroutine.md R75). -/
def execRet (s : State) : Result := complete .ret s (retHandler s)

end Sys2Proof.Machine
end

