-- ==== Sys2Proof/Machine/SystemData.lean ====
section
/-! DEFINITION. HLT, LDI and PRN (42_system_data.md R68 to R70; 40_engine.md R59). -/

namespace Sys2Proof.Machine

/-- HLT (42_system_data.md R68). -/
def execHlt (s : State) : Result :=
  complete .hlt s (.ok ((s.setRun .halted).setPc (s.seqPc 0)))

/-- LDI's handler (42_system_data.md R69). -/
def ldiHandler (r imm : Byte) (s : State) : Except FaultCause State := do
  let i ← regIndex r
  return (s.setReg i (immediate imm)).setPc (s.seqPc 2)

/-- LDI (42_system_data.md R69). -/
def execLdi (r imm : Byte) (s : State) : Result := complete .ldi s (ldiHandler r imm s)

/-- `emit(v)` once the host accepts: `v` joins the output trace and `out_pending` is 0 (42_system_data.md R70). -/
def State.emit (s : State) (v : Byte) : State := { s with trace := s.trace ++ [v], outPending := false }

/-- PRN's handler at an edge at which the host accepts (42_system_data.md R70). -/
def prnHandler (r : Byte) (s : State) : Except FaultCause State := do
  let i ← regIndex r
  return (s.emit (s.reg i)).setPc (s.seqPc 1)

/-- The hold: `out_pending` is 1 and nothing else changes (40_engine.md R59). -/
def State.hold (s : State) : State := { s with outPending := true }

/-- PRN (42_system_data.md R70). The step and the host's acceptance are one joint step: with `out_ready` = 1 it
retires, and otherwise a valid PRN holds (40_engine.md R59; log 6). -/
def execPrn (r : Byte) (s : State) : Result :=
  match prnHandler r s with
  | .error c => complete .prn s (.error c)
  | .ok t => if s.pins.outReady then complete .prn s (.ok t) else .next s.hold

end Sys2Proof.Machine
end

