-- ==== Sys2Proof/Machine/Dispatch.lean ====
section
/-! DEFINITION. The dispatch of an instruction to its meaning, one arm per constructor: register validation, handler
and commit, steps 5 to 7 of the cycle (40_engine.md R50). -/

namespace Sys2Proof.Machine

/-- What instruction `i` does in state `s`, with every operand byte it may carry. -/
def exec (i : Instr) (s : State) : Host.Outcome State Fault Refusal :=
  match i with
  | .hlt => Sys2Proof.Machine.execHlt s
  | .ldi r imm => Sys2Proof.Machine.execLdi r imm s
  | .prn r => Sys2Proof.Machine.execPrn r s
  | .mul rA rB => Sys2Proof.Machine.execMul rA rB s
  | .add rA rB => Sys2Proof.Machine.execAdd rA rB s
  | .push r => Sys2Proof.Machine.execPush r s
  | .pop r => Sys2Proof.Machine.execPop r s
  | .call r => Sys2Proof.Machine.execCall r s
  | .ret => Sys2Proof.Machine.execRet s
  | .cmp rA rB => Sys2Proof.Machine.execCmp rA rB s
  | .jeq r => Sys2Proof.Machine.execJeq r s
  | .jne r => Sys2Proof.Machine.execJne r s
  | .jmp r => Sys2Proof.Machine.execJmp r s

end Sys2Proof.Machine
end

