-- ==== Sys2Proof/Machine/Ports.lean ====
section
/-! DEFINITION. What the host does to the core at a rising edge: the sampled pins, reset, the load port and start
(70_reset_and_hazards.md R97 to R100). -/

namespace Sys2Proof.Machine

/-- Samples the input ports for this edge: the next entry of `inputs`, or the same levels as before when the host has
listed no more (DESIGN CHOICE, log 4). -/
def State.sample (s : State) : State :=
  match s.inputs with
  | [] => s
  | p :: rest => { s with pins := p, inputs := rest }

/-- A rising edge with `rst` = 1 (70_reset_and_hazards.md R98): every piece of state takes its reset value; a held PRN
is abandoned and no load is taken. The model arguments and the host's levels are not the core's to reset. -/
def State.resetEdge (s : State) : State :=
  { State.resetWith s.params with pins := s.pins, inputs := s.inputs }

/-- The load port (70_reset_and_hazards.md R99): with `ld_we` = 1 the byte is written in IDLE when the address exists;
otherwise the write is dropped and `ld_err` becomes 1. -/
def State.loadPort (s : State) : State :=
  if s.pins.ldWe then
    if s.runState = .idle ∧ s.pins.ldAddr.toNat < s.memSize then
      s.setMem (s.mem.write s.pins.ldAddr.toNat s.pins.ldData)
    else { s with ldErr := true }
  else s

/-- An IDLE edge: `start` = 1 enters RUNNING (70_reset_and_hazards.md R100). -/
def State.startEdge (s : State) : State :=
  if s.pins.start then s.setRun .running else s

end Sys2Proof.Machine
end

