-- ==== Sys2Proof/Machine/Engine.lean ====
section
/-! DEFINITION. The fetch-decode-execute cycle and the rising edge around it (40_engine.md R49 to R59), and where a
program word is placed so that the next edge runs it. -/

namespace Sys2Proof.Machine

/-- The step limit is a number and `icount` has reached it (40_engine.md R51). -/
def State.limitReached (s : State) : Bool :=
  match s.params.stepLimit with
  | none => false
  | some n => decide (n ≤ s.icount.toNat)

/-- Opcode fetch, decode and operand fetch (40_engine.md R50 steps 2 to 4, R52 to R54): the instruction at `pc`, or the
fault and the opcode byte its record holds (0 when none was fetched). -/
def State.fetch (s : State) : Except (FaultCause × Byte) Instr :=
  match s.memRead .fetch s.pc.toNat with
  | .error c => .error (c, 0#8)
  | .ok op =>
    match opOfByte op with
    | none => .error (.illegalInstruction, op)
    | some o =>
      match o.form with
      | .whole i => .ok i
      | .needs1 k =>
        match s.memRead .operand (s.pc.toNat + 1) with
        | .error c => .error (c, op)
        | .ok b1 => .ok (k b1)
      | .needs2 k =>
        match s.memRead .operand (s.pc.toNat + 1) with
        | .error c => .error (c, op)
        | .ok b1 =>
          match s.memRead .operand (s.pc.toNat + 2) with
          | .error c => .error (c, op)
          | .ok b2 => .ok (k b1 b2)

/-- The cycle of one RUNNING step (40_engine.md R50): the step limit, fetch and decode, then the instruction. -/
def State.cycle (s : State) : Result :=
  if s.limitReached then .next (s.setRun .stopped)
  else
    match s.fetch with
    | .error (c, op) => .next (s.raise c op)
    | .ok i => exec i s

/-- What an edge without reset does once the load port has been served: in IDLE it may start, in RUNNING it runs one
cycle, and in a terminal state nothing happens (40_engine.md R49). -/
def State.advance (s : State) : Result :=
  match s.runState with
  | .idle => .next s.startEdge
  | .running => s.cycle
  | .halted => .next s
  | .faulted => .next s
  | .stopped => .next s

/-- One rising edge with its pins sampled: reset, or else the load port and then the core (70_reset_and_hazards.md R98,
R99; log 8). -/
def State.edge (s : State) : Result :=
  if s.pins.rst then .next s.resetEdge else s.loadPort.advance

/-- The bytes of memory at `a`, `a + 1` and `a + 2` that exist (20_memory.md R25). -/
def State.window (s : State) (a : Nat) : List Byte :=
  (([0, 1, 2].map (a + ·)).filter (· < s.memSize)).map s.mem.read

/-- Writes bytes at rising addresses from `a`. -/
def Memory.writeAll (m : Memory) (a : Nat) : List Byte → Memory
  | [] => m
  | b :: bs => Memory.writeAll (m.write a b) (a + 1) bs

/-- Makes the next edge fetch the given three bytes (log 7): they are stored at `pc`, or at 0 with `pc` = 0 where three
bytes do not fit at `pc`; the core is RUNNING, no reset is asked for, and a reached step limit is lifted. -/
def State.placeBytes (s : State) (bytes : List Byte) : State :=
  let at0 := if s.pc.toNat + 3 ≤ s.memSize then s.pc else 0#9
  { s with
    pc := at0
    mem := s.mem.writeAll at0.toNat bytes
    runState := .running
    params := { s.params with stepLimit := if s.limitReached then none else s.params.stepLimit }
    pins := { s.pins with rst := false }
    inputs := match s.inputs with
      | [] => []
      | p :: rest => { p with rst := false } :: rest }

end Sys2Proof.Machine
end

