-- ==== Sys2Proof/Machine/Step.lean ====
section
/-! DEFINITION. The step of the machine, one rising edge of `clk` (70_reset_and_hazards.md R97: at most one step per
edge), and the host's way to place an instruction where it fetches next. -/

namespace Sys2Proof.Machine

/-- One rising edge: sample the host's pins, then act on them (log 3, log 4). -/
def step (s : State) : Host.Outcome State Fault Refusal := s.sample.edge

/-- `s` with an opcode-table word placed where `step` fetches its next instruction (log 7). -/
def State.withFetchWord (s : State) (nbits w : Nat) : State := s.placeBytes (tableWordBytes nbits w)

end Sys2Proof.Machine
end

