-- ==== Sys2Proof/Machine/Loader.lean ====
section
/-! DEFINITION. The host's side of a boot, as the levels it drives: reset, the program from address 0, start, with the
two checks the loader owes the core (70_reset_and_hazards.md R99, R101; 60_exceptions.md R85). -/

namespace Sys2Proof.Machine

/-- The loader's own conditions; they are no faults of the core (60_exceptions.md R85). -/
inductive LoaderError where
  | programTooLarge
  | invalidWord
deriving DecidableEq, Repr

/-- The levels that write a list of bytes from address `a` upward, one byte an edge (70_reset_and_hazards.md R99). -/
def loadPins : Nat → List Byte → List Pins
  | _, [] => []
  | a, b :: bs => { Pins.quiet with ldWe := true, ldAddr := u8 a, ldData := b } :: loadPins (a + 1) bs

/-- The boot of 70_reset_and_hazards.md R101: one reset edge, the program's bytes, one start edge. -/
def bootPins (program : List Byte) : List Pins :=
  { Pins.quiet with rst := true } :: (loadPins 0 program ++ [{ Pins.quiet with start := true }])

/-- The loader: too many words for memory, or a word above 255, and the core is not started (70_reset_and_hazards.md
R99). The size is checked first (DESIGN CHOICE, log 14). -/
def loader (memSize : Nat) (words : List Nat) : Except LoaderError (List Pins) :=
  if memSize < words.length then .error .programTooLarge
  else if words.all (· ≤ 255) then .ok (bootPins (words.map u8))
  else .error .invalidWord

end Sys2Proof.Machine
end

