-- ==== Sys2Proof/Machine/Observe.lean ====
section
/-! DEFINITION. The output ports, what the host may observe, and the host's exit status (10_state.md R14, R18;
70_reset_and_hazards.md R97, R102; 60_exceptions.md R96). They read the state and change nothing. -/

namespace Sys2Proof.Machine

/-- The code on `state_o` (10_state.md R18). -/
def RunState.code : RunState → BitVec 3
  | .idle => 0#3
  | .running => 1#3
  | .halted => 2#3
  | .faulted => 3#3
  | .stopped => 4#3

/-- `fl_o` = 00000LGE (10_state.md R14; the order is D17's, PRESUMED by the spec's U4). -/
def State.flO (s : State) : Byte :=
  0#5 ++ (BitVec.ofBool s.flags.l ++ BitVec.ofBool s.flags.g ++ BitVec.ofBool s.flags.e)

/-- `out_valid` equals `out_pending` (70_reset_and_hazards.md R97). -/
def State.outValid (s : State) : Bool := s.outPending

/-- `out_data`: the value a held PRN offers (42_system_data.md R70). None when nothing is offered: the spec gives the
port no value then (log 10). -/
def State.outData (s : State) : Option Byte :=
  if s.outPending then
    match s.fetch with
    | .ok (.prn r) =>
      match regIndex r with
      | .ok i => some (s.reg i)
      | .error _ => none
    | _ => none
  else none

/-- `obs_data`: the cell at `obs_addr`, or 0 where there is none (70_reset_and_hazards.md R97). -/
def State.obsData (s : State) (addr : Byte) : Byte :=
  if addr.toNat < s.memSize then s.mem.read addr.toNat else 0#8

/-- The host may read the outputs as one snapshot in every run state but RUNNING (70_reset_and_hazards.md R102). -/
def State.observable (s : State) : Bool := s.runState != .running

/-- A run ends in HALTED, FAULTED or STOPPED (40_engine.md R61). -/
def State.ended (s : State) : Bool :=
  match s.runState with
  | .halted => true
  | .faulted => true
  | .stopped => true
  | .idle => false
  | .running => false

/-- The exit status the core's end maps to: 0 for HALTED, 1 for any fault; STOPPED's belongs to the host
(60_exceptions.md R96). -/
def State.exitStatus (s : State) : Option Nat :=
  match s.runState with
  | .halted => some 0
  | .faulted => some 1
  | .stopped => none
  | .idle => none
  | .running => none

end Sys2Proof.Machine
end

