-- ==== Sys2Proof/Safety.lean ====
section
/-! DEFINITION. The terms claims are stated in: the invariant of the machine, which fields one transition leaves alone,
the state a fault leaves, and what a program cannot see. -/

namespace Sys2Proof.Machine

/-- The next state of an outcome, when it has one. -/
def nextState? : Result → Option State
  | .next t => some t
  | .fault _ => none
  | .refused _ => none

/-- Every piece of the core's state has its value of the reset table (10_state.md R22). -/
def State.HasResetValues (s : State) : Prop :=
  (∀ k : RegIx, k ≠ 7 → s.reg k = 0#8) ∧ s.reg 7 = s.params.spReset ∧ s.pc = 0#9 ∧
  s.flags.l = false ∧ s.flags.g = false ∧ s.flags.e = false ∧
  (∀ a : Nat, s.mem.read a = 0#8) ∧ s.runState = .idle ∧
  s.fault.code = 0#2 ∧ s.fault.kind = 0#3 ∧ s.fault.pc = 0#9 ∧ s.fault.opcode = 0#8 ∧ s.fault.info = 0#9 ∧
  s.icount = 0#32 ∧ s.outPending = false ∧ s.trace = [] ∧ s.ldErr = false

/-- At most one flag is 1 (10_state.md R13, its invariant). -/
def Flags.atMostOne (f : Flags) : Bool := !(f.l && f.g) && !(f.l && f.e) && !(f.g && f.e)

/-- The state invariant of the machine. Every clause but the first two is about state that the rules tie together. -/
structure State.Inv (s : State) : Prop where
  /-- Memory is in canonical form. -/
  memWf : s.mem.wf
  /-- No cell exists at `MEM_SIZE` or above (10_state.md R16). -/
  memBounded : ∀ c ∈ s.mem, c.1 < s.memSize
  /-- The pc never exceeds 258 (10_state.md R12). -/
  pcBound : s.pc.toNat ≤ 258
  /-- At most one flag is 1 (10_state.md R13). -/
  flagsOk : s.flags.atMostOne = true
  /-- The fault record is all 0 outside FAULTED (10_state.md R19). -/
  noFault : s.runState ≠ .faulted → s.fault = FaultRecord.none
  /-- In FAULTED the record holds a fault code and the pc, which still holds the faulting address (60_exceptions.md R86). -/
  faulted : s.runState = .faulted → s.fault.code ≠ 0#2 ∧ s.fault.pc = s.pc
  /-- In IDLE nothing has run: all but memory and `ld_err` is as reset left it (40_engine.md R49). -/
  idle : s.runState = .idle → s.regs = resetRegs s.params ∧ s.pc = 0#9 ∧
    s.flags = { l := false, g := false, e := false } ∧ s.icount = 0#32 ∧ s.trace = []
  /-- `out_pending` is 1 only while RUNNING, at a valid PRN that the step limit lets run (10_state.md R17, 40_engine.md
  R59). -/
  held : s.outPending = true → s.runState = .running ∧ s.limitReached = false ∧
    ∃ r : RegIx, s.fetch = .ok (.prn (regByte r))

/-- Neither the model arguments, nor the host's levels, nor `ld_err` differ: what no instruction touches. -/
def sameEnv (s t : State) : Prop :=
  t.params = s.params ∧ t.pins = s.pins ∧ t.inputs = s.inputs ∧ t.ldErr = s.ldErr

/-- Every cell reads as before. -/
def sameMem (s t : State) : Prop := ∀ a : Nat, t.mem.read a = s.mem.read a

/-- Every register reads as before. -/
def sameRegs (s t : State) : Prop := ∀ k : RegIx, t.reg k = s.reg k

/-- What every retiring instruction does besides its own effect (40_engine.md R57, R58): `icount` goes up by one and
saturates, the fault record and the environment are untouched. -/
def retires (s t : State) : Prop :=
  t.icount.toNat = min (s.icount.toNat + 1) 4294967295 ∧ t.fault = s.fault ∧ sameEnv s t

/-- The output side is unchanged. -/
def sameOut (s t : State) : Prop := t.trace = s.trace ∧ t.outPending = s.outPending

/-- `s` with a fault entered (60_exceptions.md R86): only the run state and the five fields of the record differ. -/
def faultedWith (s : State) (code : BitVec 2) (kind : BitVec 3) (opcode : Byte) (info : Word9) : State :=
  { s with
    runState := .faulted
    fault := { code := code, kind := kind, pc := s.pc, opcode := opcode, info := info } }

/-- The state an edge without reset hands to the core: the pins sampled, the load port served. -/
def State.ready (s : State) : State := s.sample.loadPort

/-- What a program can see of the state: everything but `icount`, the output trace, `ld_err`, the fault record, FL.L and
FL.G (10_state.md R13, R20, R23). -/
def State.visible (s : State) : State :=
  { s with
    icount := 0#32
    trace := []
    ldErr := false
    fault := FaultRecord.none
    flags := { l := false, g := false, e := s.flags.e } }

end Sys2Proof.Machine
end

