-- ==== Sys2Proof/Certificates/Slice0/Obligations.lean ====
section
/-! DEFINITION. The statements for the provers, from the spec's numbered rules. `s.sample.pins` are the levels at the
coming edge (log 4), and `s.ready` is the state an edge without reset hands to the core: the pins sampled, the load port
served, in that order (log 8). Registers in instructions are written
`regByte r`, the byte that names register `r`; every other operand byte is covered by `BadRegisterOperandFaultsFirst`. -/

open Sys2Proof Sys2Proof.Machine

/-! ## Reset, load and start -/

/-- Every row of the reset table of 10_state.md R22. -/
def Obligations.PowerOnStateIsTheResetTable : Prop :=
  ∀ p : Params, (State.resetWith p).HasResetValues ∧ (State.resetWith p).params = p ∧
    State.reset.HasResetValues ∧ State.reset.reg 7 = 0#8

/-- 70_reset_and_hazards.md R98: an edge with `rst` = 1 resets every piece of state, whatever the run state, takes no
load write, runs no instruction and abandons a held PRN. The model arguments stay, fixed for the run (R22). -/
def Obligations.ResetEdgeResetsEveryState : Prop :=
  ∀ s : State, s.sample.pins.rst = true →
    ∃ t, step s = .next t ∧ t.HasResetValues ∧ t.params = s.params ∧ t.outValid = false

/-- 70_reset_and_hazards.md R99, the write: in IDLE an existing cell takes the byte, every other cell and every other
piece of state stays, and a `start` at the same edge is taken too. -/
def Obligations.IdleLoadWritesOneCell : Prop :=
  ∀ s : State, s.runState = .idle → s.sample.pins.rst = false → s.sample.pins.ldWe = true →
    s.sample.pins.ldAddr.toNat < s.memSize →
    ∃ t, step s = .next t ∧ t.mem.read s.sample.pins.ldAddr.toNat = s.sample.pins.ldData ∧
      (∀ a, a ≠ s.sample.pins.ldAddr.toNat → t.mem.read a = s.mem.read a) ∧
      t = { s.sample with
        mem := t.mem
        runState := if s.sample.pins.start then .running else .idle }

/-- 70_reset_and_hazards.md R99, dropped writes, and R100, `start` ignored: outside IDLE the host's load and start pins
change nothing but `ld_err`. The step is that of a host that only offers `out_ready`, with `ld_err` raised by a dropped
write, at the same edge (log 8). -/
def Obligations.HostCannotDisturbOutsideIdle : Prop :=
  ∀ s : State, s.runState ≠ .idle → s.sample.pins.rst = false →
    ∃ u, step { s with pins := { Pins.quiet with outReady := s.sample.pins.outReady }, inputs := [] } = .next u ∧
      step s = .next { u with
        ldErr := u.ldErr || s.sample.pins.ldWe
        pins := s.sample.pins
        inputs := s.sample.inputs }

/-- 70_reset_and_hazards.md R99: in IDLE a write to an address that does not exist is dropped and sets `ld_err`. -/
def Obligations.IdleLoadOutOfMemoryIsDropped : Prop :=
  ∀ s : State, s.runState = .idle → s.sample.pins.rst = false → s.sample.pins.ldWe = true →
    s.memSize ≤ s.sample.pins.ldAddr.toNat →
    step s = .next { s.sample with
      ldErr := true
      runState := if s.sample.pins.start then .running else .idle }

/-- 70_reset_and_hazards.md R100: in IDLE, `start` = 1 enters RUNNING and changes nothing else, and the first fetch is at
0 (with the invariant's clause that an IDLE core is as reset left it); in every other run state the level of `start`
makes no difference but to itself. -/
def Obligations.StartRunsOnlyFromIdle : Prop :=
  ∀ s : State,
    (s.runState = .idle → s.sample.pins.rst = false → s.sample.pins.start = true →
      ∃ t, step s = .next t ∧ t = { s.ready with runState := .running } ∧ (s.Inv → t.pc = 0#9)) ∧
    (s.runState ≠ .idle → ∀ b : Bool, ∃ u,
      step { s with pins := { s.sample.pins with start := b }, inputs := [] } = .next u ∧
      step { s with pins := { s.sample.pins with start := !b }, inputs := [] } =
        .next { u with pins := { s.sample.pins with start := !b } })

/-- 70_reset_and_hazards.md R99, R101, with the model's loader, whose levels are the model's reading of the boot (DESIGN
CHOICE, log 7): from any state, however it came about, a boot of `1 + k +
1` edges leaves the program at addresses 0 to k-1, 0 everywhere else, and a RUNNING core that is otherwise as reset
leaves it. -/
def Obligations.BootLoadsTheProgramAndStarts : Prop :=
  ∀ (s : State) (words : List Nat) (pins : List Pins),
    loader s.memSize words = .ok pins → s.inputs = pins →
    ∃ t, Sys2Proof.core.run pins.length s = .next t ∧ t.runState = .running ∧ t.inputs = [] ∧
      (∀ a, t.mem.read a = u8 (words.getD a 0)) ∧
      t = { State.resetWith s.params with mem := t.mem, runState := .running, pins := t.pins } ∧ t.mem.wf

/-- 70_reset_and_hazards.md R99, the loader's checks: too many words, or a word above 255, and the core is not started.
That a list that fails both checks is `ProgramTooLarge` is the model's choice (DESIGN CHOICE, log 14). -/
def Obligations.LoaderChecksBeforeItWrites : Prop :=
  ∀ (n : Nat) (words : List Nat),
    (n < words.length → loader n words = .error .programTooLarge) ∧
    (words.length ≤ n → (∃ w ∈ words, 255 < w) → loader n words = .error .invalidWord) ∧
    (words.length ≤ n → (∀ w ∈ words, w ≤ 255) → ∃ pins, loader n words = .ok pins)

/-! ## Run states and the step -/

/-- 40_engine.md R49: the transition table. In IDLE and in a terminal state no instruction executes: the state is the one
the host's pins left (`s.ready`), and only `start` in IDLE and reset change the run state. -/
def Obligations.RunStateTransitions : Prop :=
  ∀ s : State, ∃ t, step s = .next t ∧
    (s.sample.pins.rst = true → t.runState = .idle) ∧
    (s.sample.pins.rst = false →
      (s.runState = .idle →
        t = { s.ready with runState := if s.sample.pins.start then .running else .idle }) ∧
      (s.runState = .running →
        t.runState ≠ .idle ∧
        (t.runState = .halted ↔ s.limitReached = false ∧ s.fetch = .ok .hlt) ∧
        (t.runState = .stopped ↔ s.limitReached = true) ∧
        (t.runState = .faulted ↔ ∃ c op, t = s.ready.raise c op)) ∧
      (s.ended = true → t = s.ready ∧ t.runState = s.runState ∧ sameRegs s t ∧ sameMem s t ∧ t.pc = s.pc))

/-- 40_engine.md R51: the step limit. -/
def Obligations.StepLimitStopsBeforeTheFetch : Prop :=
  ∀ s : State, s.runState = .running → s.sample.pins.rst = false →
    (∀ n, s.params.stepLimit = some n → n ≤ s.icount.toNat →
      step s = .next { s.ready with runState := .stopped }) ∧
    ((∀ n, s.params.stepLimit = some n → s.icount.toNat < n) → ∀ t, step s = .next t → t.runState ≠ .stopped)

/-- 40_engine.md R50: when the bytes at `pc` decode to an instruction, a RUNNING step without reset and below the step
limit is `exec` of that instruction. -/
def Obligations.StepRunsTheDecodedInstruction : Prop :=
  ∀ (s : State) (i : Instr) (rest : List Byte), s.runState = .running → s.sample.pins.rst = false →
    s.limitReached = false → decode (s.window s.pc.toNat) = .ok (i, rest) → step s = exec i s.ready

/-- The model's own helper (log 7): the next step runs the word that `withFetchWord` places. -/
def Obligations.PlacedWordRunsNext : Prop :=
  ∀ (s : State) (nbits w : Nat) (i : Instr), decodeTableWord nbits w = some i →
    step (s.withFetchWord nbits w) = exec i (s.withFetchWord nbits w).ready

/-- 40_engine.md R57, R60: what every RUNNING step does to `icount`: a fault and a stop do not count, HLT counts, and a
step that stays RUNNING either counts or is a PRN the host has not accepted. -/
def Obligations.OnlyRetirementCounts : Prop :=
  ∀ s t : State, s.runState = .running → s.sample.pins.rst = false → step s = .next t →
    (t.runState = .faulted ∨ t.runState = .stopped → t.icount = s.icount) ∧
    (t.runState = .halted → t.icount.toNat = min (s.icount.toNat + 1) 4294967295) ∧
    (t.runState = .running →
      t.icount.toNat = min (s.icount.toNat + 1) 4294967295 ∨
      (t = { s.ready with outPending := true } ∧ s.sample.pins.outReady = false ∧
        ∃ r : RegIx, s.fetch = .ok (.prn (regByte r))))

/-- 40_engine.md R60, 70_reset_and_hazards.md R105: with a host that accepts every value and asks for nothing, a run of
`k` steps that is still RUNNING has retired `k` instructions, and one that HALTED has retired at most `k`, each in one
step. That the host's levels stay as they are once `inputs` is empty is the model's choice (DESIGN CHOICE, log 4). -/
def Obligations.RunsRetireOneInstructionPerStep : Prop :=
  ∀ (k : Nat) (s t : State), s.runState = .running → s.inputs = [] → s.pins = Pins.quiet →
    s.icount.toNat + k < 4294967295 → Sys2Proof.core.run k s = .next t →
    (t.runState = .running → t.icount.toNat = s.icount.toNat + k) ∧
    (t.runState = .halted → ∃ j, 1 ≤ j ∧ j ≤ k ∧ t.icount.toNat = s.icount.toNat + j ∧
      ∃ u, Sys2Proof.core.run (j - 1) s = .next u ∧ u.fetch = .ok .hlt ∧ Sys2Proof.core.run j s = .next t)

/-- The state invariant (10_state.md R12, R13, R16, R17, R19, R49 and the canonical form) holds after reset, for every
model argument. -/
def Obligations.InvariantHoldsAfterReset : Prop :=
  ∀ p : Params, (State.resetWith p).Inv ∧ State.reset.Inv

/-- The state invariant is kept by every step from every state that has it. -/
def Obligations.EveryStepKeepsTheInvariant : Prop :=
  ∀ s : State, s.Inv → ∃ t, step s = .next t ∧ t.Inv

/-- 10_state.md R13, 40_engine.md R58: only a CMP changes the flags, and it leaves exactly one of them 1. -/
def Obligations.OnlyCmpChangesTheFlags : Prop :=
  ∀ s t : State, s.sample.pins.rst = false → step s = .next t → t.flags ≠ s.flags →
    s.runState = .running ∧ s.limitReached = false ∧
    ∃ rA rB : RegIx, s.fetch = .ok (.cmp (regByte rA) (regByte rB)) ∧
      t.flags = { l := decide ((s.reg rA).toNat < (s.reg rB).toNat)
                  g := decide ((s.reg rB).toNat < (s.reg rA).toNat)
                  e := decide (s.reg rA = s.reg rB) }

/-- 20_memory.md R26, R38: without reset, memory changes only at the cell a PUSH or CALL stores to, or at the cell the
host loads in IDLE. -/
def Obligations.OnlyStoresAndLoadsChangeMemory : Prop :=
  ∀ (s t : State) (a : Nat), s.sample.pins.rst = false → step s = .next t → t.mem.read a ≠ s.mem.read a →
    (s.runState = .running ∧ a = s.pushAddr.toNat ∧ a < s.memSize ∧
      ∃ r : RegIx, s.fetch = .ok (.push (regByte r)) ∨ s.fetch = .ok (.call (regByte r))) ∨
    (s.runState = .idle ∧ s.sample.pins.ldWe = true ∧ a = s.sample.pins.ldAddr.toNat ∧ a < s.memSize)

/-- 10_state.md R21, 42_system_data.md R70: without reset, the output trace changes only by one value at its end, from a
PRN the host accepts at that edge. -/
def Obligations.OnlyAcceptedPrnExtendsTheTrace : Prop :=
  ∀ s t : State, s.sample.pins.rst = false → step s = .next t → t.trace ≠ s.trace →
    s.runState = .running ∧ s.sample.pins.outReady = true ∧ t.outPending = false ∧
    ∃ r : RegIx, s.fetch = .ok (.prn (regByte r)) ∧ t.trace = s.trace ++ [s.reg r]

/-- 10_state.md R13, R20, R23: no program can tell apart two states that differ in `icount` (with no step limit), the
output trace, `ld_err`, the fault record, FL.L or FL.G: one step from each leaves states that differ at most there. -/
def Obligations.ProgramsCannotSeeTheBookkeeping : Prop :=
  ∀ s u : State, s.params.stepLimit = none → s.visible = u.visible →
    ∃ s' u', step s = .next s' ∧ step u = .next u' ∧ s'.visible = u'.visible

/-! ## Faults -/

/-- 60_exceptions.md R86, R81, 00_scope.md R9: a step that enters FAULTED writes the run state and the five fields of the
record and nothing else; `fault_pc` is where the instruction began and the record is one of the table's. -/
def Obligations.FaultEntryWritesOnlyTheRecord : Prop :=
  ∀ s t : State, s.runState = .running → step s = .next t → t.runState = .faulted →
    ∃ (code : BitVec 2) (kind : BitVec 3) (opcode : Byte) (info : Word9),
      t = faultedWith s.ready code kind opcode info ∧ t.fault.pc = s.pc ∧ t.pc = s.pc ∧
      ((code = 1#2 ∧ kind = 0#3 ∧ info = 0#9 ∧ opcode = s.mem.read s.pc.toNat) ∨
       (code = 2#2 ∧ kind = 0#3 ∧ info = s.pc ∧ opcode = 0#8 ∧ s.memSize ≤ s.pc.toNat) ∨
       (code = 2#2 ∧ 1 ≤ kind.toNat ∧ kind.toNat ≤ 4 ∧ opcode = s.mem.read s.pc.toNat))

/-- 60_exceptions.md R87: which condition is reported, in its order. `op` is the byte at `pc`; `o` the instruction it
starts. RETADDR is reported even where the stack address does not exist, and the last clause says that no step reports
UnsupportedOperation. -/
def Obligations.FirstFaultInTheOrderOfTheCycle : Prop :=
  ∀ s : State, s.runState = .running → s.sample.pins.rst = false →
    (s.limitReached = true → step s = .next { s.ready with runState := .stopped }) ∧
    (s.limitReached = false → s.memSize ≤ s.pc.toNat →
      step s = .next (faultedWith s.ready 2#2 0#3 0#8 s.pc)) ∧
    (s.limitReached = false → s.pc.toNat < s.memSize →
      (opOfByte (s.mem.read s.pc.toNat) = none →
        step s = .next (faultedWith s.ready 1#2 0#3 (s.mem.read s.pc.toNat) 0#9)) ∧
      (∀ o, opOfByte (s.mem.read s.pc.toNat) = some o →
        (1 ≤ o.operandCount → s.memSize ≤ s.pc.toNat + 1 →
          step s = .next (faultedWith s.ready 2#2 1#3 (s.mem.read s.pc.toNat) (BitVec.ofNat 9 (s.pc.toNat + 1)))) ∧
        (o.operandCount = 2 → s.pc.toNat + 1 < s.memSize → s.memSize ≤ s.pc.toNat + 2 →
          step s = .next (faultedWith s.ready 2#2 1#3 (s.mem.read s.pc.toNat) (BitVec.ofNat 9 (s.pc.toNat + 2)))))) ∧
    (s.limitReached = false → ∀ i, s.fetch = .ok i →
      (∀ pre b post, i.regOperands = pre ++ b :: post → (∀ x ∈ pre, x.toNat < 8) → 8 ≤ b.toNat →
        step s = .next (faultedWith s.ready 2#2 2#3 (s.mem.read s.pc.toNat) (zext9 b))) ∧
      (∀ r : RegIx, i = .call (regByte r) → 255 < s.pc.toNat + 2 →
        step s = .next (faultedWith s.ready 2#2 4#3 (s.mem.read s.pc.toNat) (BitVec.ofNat 9 (s.pc.toNat + 2)))) ∧
      (∀ r : RegIx, i = .call (regByte r) → s.pc.toNat + 2 ≤ 255 → s.memSize ≤ s.pushAddr.toNat →
        step s = .next (faultedWith s.ready 2#2 3#3 (s.mem.read s.pc.toNat) (zext9 s.pushAddr))) ∧
      (∀ r : RegIx, i = .push (regByte r) → s.memSize ≤ s.pushAddr.toNat →
        step s = .next (faultedWith s.ready 2#2 3#3 (s.mem.read s.pc.toNat) (zext9 s.pushAddr))) ∧
      (∀ r : RegIx, i = .pop (regByte r) ∨ i = .ret → s.memSize ≤ s.sp.toNat →
        step s = .next (faultedWith s.ready 2#2 3#3 (s.mem.read s.pc.toNat) (zext9 s.sp)))) ∧
    (∀ t, step s = .next t → t.runState = .faulted → t.fault.code ≠ 3#2)

/-- 40_engine.md R55, 30_encoding.md R40: the first register operand of 8 or more raises REGISTER before the instruction
does anything, for every instruction that has register operands; an immediate is never checked. -/
def Obligations.BadRegisterOperandFaultsFirst : Prop :=
  (∀ (i : Instr) (s : State) (pre : List Byte) (b : Byte) (post : List Byte),
    i.regOperands = pre ++ b :: post → (∀ x ∈ pre, x.toNat < 8) → 8 ≤ b.toNat →
    exec i s = .next (faultedWith s 2#2 2#3 (opcodeOf i.op) (zext9 b))) ∧
  (∀ i : Instr,
    (i.op.format = .z → i.regOperands = []) ∧
    (i.op.format = .r ∨ i.op.format = .rr → i.regOperands = i.operandBytes) ∧
    (i.op.format = .ri → i.regOperands = i.operandBytes.take 1)) ∧
  (∀ b : Byte, (∀ r : RegIx, regIndex b = .ok r ↔ r.val = b.toNat) ∧
    (regIndex b = .error (.outOfBoundsAccess .register (zext9 b)) ↔ 8 ≤ b.toNat))

/-- 41_alu.md R62, 60_exceptions.md R84: ALU select 11, driven for any instruction with valid operands, raises
UnsupportedOperation and writes nothing. -/
def Obligations.UnsupportedAluSelectFaults : Prop :=
  ∀ (o : Op) (rA rB : RegIx) (s : State),
    complete o s (aluHandler 3#2 (regByte rA) (regByte rB) s) =
      .next (faultedWith s 3#2 0#3 (opcodeOf o) 0#9)

/-! ## Memory -/

/-- 20_memory.md R24: the two primitives. A read names its kind and address when there is no such cell and changes
nothing (it answers no state); after a write, that cell reads the byte and nothing else has changed. -/
def Obligations.MemoryPrimitives : Prop :=
  ∀ (s : State) (kind : AccessKind) (a : Nat) (v : Byte),
    (a < s.memSize → s.memRead kind a = .ok (s.mem.read a) ∧
      ∃ t, s.memWrite kind a v = .ok t ∧ t.memRead kind a = .ok v ∧
        (∀ b, b ≠ a → t.mem.read b = s.mem.read b) ∧ t = { s with mem := t.mem }) ∧
    (s.memSize ≤ a → s.memRead kind a = .error (.outOfBoundsAccess kind (BitVec.ofNat 9 a)) ∧
      s.memWrite kind a v = .error (.outOfBoundsAccess kind (BitVec.ofNat 9 a)))

/-- The model's canonical form of the array of 10_state.md R16 (DESIGN CHOICE, log 13): memories that read alike at every address are the same data, and every
write keeps the form. -/
def Obligations.EqualReadingMemoriesAreEqual : Prop :=
  ∀ m n : Memory, m.wf → n.wf → (∀ a, m.read a = n.read a) →
    m = n ∧ ∀ a v, (m.write a v).wf

/-- 20_memory.md R36, 70_reset_and_hazards.md R104: the byte that a PUSH or a CALL stores is what the very next step
fetches, as an opcode or as an operand, wherever in the next instruction it lands. `v` is the stored byte and `target`
the next pc; PUSH R7 stores, and CALL R7 jumps to, the decremented SP. -/
def Obligations.NextFetchSeesThePushedByte : Prop :=
  ∀ (s : State) (i : Instr) (r : RegIx) (v : Byte) (target : Nat),
    s.runState = .running → s.limitReached = false → s.sample.pins.rst = false → s.fetch = .ok i →
    s.pushAddr.toNat < s.memSize →
    ((i = .push (regByte r) ∧ v = (if r = 7 then s.pushAddr else s.reg r) ∧ target = s.pc.toNat + 2) ∨
      (i = .call (regByte r) ∧ v.toNat = s.pc.toNat + 2 ∧
        target = (if r = 7 then s.pushAddr else s.reg r).toNat)) →
    ∃ t, step s = .next t ∧ t.runState = .running ∧ t.pc.toNat = target ∧ t.mem.read s.pushAddr.toNat = v ∧
      (s.pushAddr.toNat = target →
        (opOfByte v = none → t.fetch = .error (.illegalInstruction, v)) ∧
        (∀ o, opOfByte v = some o → s.memSize ≤ target + o.operandCount →
          ∃ a, t.fetch = .error (.outOfBoundsAccess .operand a, v))) ∧
      (∀ (o : Op) (k : Nat), opOfByte (t.mem.read target) = some o → target + o.operandCount < s.memSize →
        k ≤ o.operandCount → s.pushAddr.toNat = target + k →
        ∃ j, t.fetch = .ok j ∧ j.op = o ∧ (encode j)[k]? = some v ∧
          (t.limitReached = false → t.sample.pins.rst = false → step t = exec j t.ready))

/-! ## Instructions: result, completion and frame

At a pc above 258, which no state with the invariant has, `pc + n` wraps in 9 bits by the model's choice (log 11). -/

/-- 41_alu.md R63, R64, R65: ADD and MUL with every pair of registers, equal ones and SP included: the sum or product of
the old values modulo 256 into rA, `pc + 3`, nothing else. -/
def Obligations.AddAndMulWrapModulo256 : Prop :=
  ∀ (rA rB : RegIx) (s : State),
    (∃ t, exec (.add (regByte rA) (regByte rB)) s = .next t ∧
      (t.reg rA).toNat = ((s.reg rA).toNat + (s.reg rB).toNat) % 256 ∧ (∀ k, k ≠ rA → t.reg k = s.reg k) ∧
      t.flags = s.flags ∧ sameMem s t ∧ t.pc = s.pc + 3#9 ∧ t.runState = s.runState ∧ sameOut s t ∧ retires s t) ∧
    (∃ t, exec (.mul (regByte rA) (regByte rB)) s = .next t ∧
      (t.reg rA).toNat = ((s.reg rA).toNat * (s.reg rB).toNat) % 256 ∧ (∀ k, k ≠ rA → t.reg k = s.reg k) ∧
      t.flags = s.flags ∧ sameMem s t ∧ t.pc = s.pc + 3#9 ∧ t.runState = s.runState ∧ sameOut s t ∧ retires s t)

/-- 41_alu.md R66: CMP sets exactly one flag by the unsigned comparison, `pc + 3`, and writes no register and no cell. -/
def Obligations.CmpSetsExactlyOneFlag : Prop :=
  ∀ (rA rB : RegIx) (s : State), ∃ t, exec (.cmp (regByte rA) (regByte rB)) s = .next t ∧
    (t.flags.l = true ↔ (s.reg rA).toNat < (s.reg rB).toNat) ∧
    (t.flags.g = true ↔ (s.reg rB).toNat < (s.reg rA).toNat) ∧
    (t.flags.e = true ↔ s.reg rA = s.reg rB) ∧
    sameRegs s t ∧ sameMem s t ∧ t.pc = s.pc + 3#9 ∧ t.runState = s.runState ∧ sameOut s t ∧ retires s t

/-- 42_system_data.md R68: HLT enters HALTED with `pc + 1` and counts. -/
def Obligations.HltHalts : Prop :=
  ∀ s : State, ∃ t, exec .hlt s = .next t ∧ t.runState = .halted ∧ t.pc = s.pc + 1#9 ∧
    sameRegs s t ∧ t.flags = s.flags ∧ sameMem s t ∧ sameOut s t ∧ retires s t

/-- 30_encoding.md R41, whole: LDI's second operand byte, whatever its value, is the immediate; only LDI has an operand
byte that is no register operand; and LDI stores it unchanged in the register, SP included, `pc + 3` (42_system_data.md
R69). -/
def Obligations.LdiLoadsTheImmediate : Prop :=
  (∀ (b imm : Byte) (rest : List Byte), decode (opcodeOf .ldi :: b :: imm :: rest) = .ok (.ldi b imm, rest)) ∧
  (∀ i : Instr, i.operandBytes ≠ i.regOperands ↔ ∃ b imm, i = .ldi b imm) ∧
  ∀ (r : RegIx) (imm : Byte) (s : State), ∃ t, exec (.ldi (regByte r) imm) s = .next t ∧
    t.reg r = imm ∧ (∀ k, k ≠ r → t.reg k = s.reg k) ∧
    t.flags = s.flags ∧ sameMem s t ∧ t.pc = s.pc + 3#9 ∧ t.runState = s.runState ∧ sameOut s t ∧ retires s t

/-- 42_system_data.md R70, 40_engine.md R59: PRN with the host accepting appends the register to the trace, `pc + 2`;
with the host not accepting it holds: `out_pending` is 1 and nothing else changes. That PRN samples `out_ready` at its own edge and completes there
is DEDUCED (log 6). -/
def Obligations.PrnEmitsOrHolds : Prop :=
  ∀ (r : RegIx) (s : State),
    (s.pins.outReady = true → ∃ t, exec (.prn (regByte r)) s = .next t ∧
      t.trace = s.trace ++ [s.reg r] ∧ t.outPending = false ∧ sameRegs s t ∧ t.flags = s.flags ∧ sameMem s t ∧
      t.pc = s.pc + 2#9 ∧ t.runState = s.runState ∧ retires s t) ∧
    (s.pins.outReady = false → exec (.prn (regByte r)) s = .next { s with outPending := true })

/-- 40_engine.md R59, 42_system_data.md R70: a PRN the host leaves waiting for any number of edges holds with its value
on `out_data`, and at the edge at which the host accepts, that value joins the trace once. Which edge shows `out_pending`
and which one accepts is DEDUCED (log 6); `out_data` is derived (log 10). -/
def Obligations.PrnEmitsOnceAfterAnyHold : Prop :=
  ∀ (k : Nat) (s : State) (r : RegIx), s.runState = .running → s.limitReached = false →
    s.fetch = .ok (.prn (regByte r)) →
    s.inputs = List.replicate (k + 1) { Pins.quiet with outReady := false } ++ [Pins.quiet] →
    (∃ u, Sys2Proof.core.run (k + 1) s = .next u ∧ u.outPending = true ∧ u.outData = some (s.reg r) ∧
      u.pc = s.pc ∧ u.icount = s.icount ∧ u.trace = s.trace ∧ u.runState = .running) ∧
    (∃ t, Sys2Proof.core.run (k + 2) s = .next t ∧ t.outPending = false ∧ t.trace = s.trace ++ [s.reg r] ∧
      t.pc = s.pc + 2#9 ∧ t.icount.toNat = min (s.icount.toNat + 1) 4294967295)

/-- 43_stack.md R71, R72: PUSH stores the register, as it is after SP is decremented, at `u8(SP - 1)`; where that cell
does not exist it raises STACK. Every cell but that one, and every register but SP, stays. -/
def Obligations.PushStoresBelowTheStackPointer : Prop :=
  ∀ (r : RegIx) (s : State),
    (s.pushAddr.toNat < s.memSize → ∃ t, exec (.push (regByte r)) s = .next t ∧
      t.sp.toNat = (s.sp.toNat + 255) % 256 ∧ (∀ k, k ≠ 7 → t.reg k = s.reg k) ∧
      t.mem.read s.pushAddr.toNat = t.reg r ∧ (∀ a, a ≠ s.pushAddr.toNat → t.mem.read a = s.mem.read a) ∧
      s.pushAddr = t.sp ∧ t.flags = s.flags ∧ t.pc = s.pc + 2#9 ∧ t.runState = s.runState ∧ sameOut s t ∧
      retires s t) ∧
    (s.memSize ≤ s.pushAddr.toNat →
      exec (.push (regByte r)) s = .next (faultedWith s 2#2 3#3 (opcodeOf .push) (zext9 s.pushAddr)))

/-- 43_stack.md R71, R73: POP loads the byte at SP into the register and then increments SP, so `POP R7` ends one above
the popped byte; where the cell does not exist it raises STACK. Memory is not written. -/
def Obligations.PopLoadsFromTheStackPointer : Prop :=
  ∀ (r : RegIx) (s : State),
    (s.sp.toNat < s.memSize → ∃ t, exec (.pop (regByte r)) s = .next t ∧
      (r ≠ 7 → t.reg r = s.mem.read s.sp.toNat ∧ t.sp.toNat = (s.sp.toNat + 1) % 256) ∧
      (r = 7 → t.sp.toNat = ((s.mem.read s.sp.toNat).toNat + 1) % 256) ∧
      (∀ k, k ≠ r → k ≠ 7 → t.reg k = s.reg k) ∧ sameMem s t ∧
      t.flags = s.flags ∧ t.pc = s.pc + 2#9 ∧ t.runState = s.runState ∧ sameOut s t ∧ retires s t) ∧
    (s.memSize ≤ s.sp.toNat →
      exec (.pop (regByte r)) s = .next (faultedWith s 2#2 3#3 (opcodeOf .pop) (zext9 s.sp)))

/-- 44_subroutine.md R74: CALL stores `pc + 2` at `u8(SP - 1)` and jumps to the register as it is after SP is
decremented; a return address above 255 raises RETADDR first, and a cell that does not exist raises STACK. -/
def Obligations.CallPushesTheReturnAddress : Prop :=
  ∀ (r : RegIx) (s : State),
    (s.pc.toNat + 2 ≤ 255 → s.pushAddr.toNat < s.memSize → ∃ t, exec (.call (regByte r)) s = .next t ∧
      t.sp.toNat = (s.sp.toNat + 255) % 256 ∧ (∀ k, k ≠ 7 → t.reg k = s.reg k) ∧
      (t.mem.read s.pushAddr.toNat).toNat = s.pc.toNat + 2 ∧
      (∀ a, a ≠ s.pushAddr.toNat → t.mem.read a = s.mem.read a) ∧ s.pushAddr = t.sp ∧
      t.pc.toNat = (t.reg r).toNat ∧ t.flags = s.flags ∧ t.runState = s.runState ∧ sameOut s t ∧ retires s t) ∧
    (255 < s.pc.toNat + 2 → exec (.call (regByte r)) s =
      .next (faultedWith s 2#2 4#3 (opcodeOf .call) (BitVec.ofNat 9 (s.pc.toNat + 2)))) ∧
    (s.pc.toNat + 2 ≤ 255 → s.memSize ≤ s.pushAddr.toNat →
      exec (.call (regByte r)) s = .next (faultedWith s 2#2 3#3 (opcodeOf .call) (zext9 s.pushAddr)))

/-- 44_subroutine.md R75, whole: RET is the byte 0x11, has no operand, jumps to the byte at SP and increments SP, writes
no flag and no cell, and raises STACK where that cell does not exist. -/
def Obligations.RetReturnsToTheByteOnTheStack : Prop :=
  encode .ret = [0x11#8] ∧ Instr.ret.assembly = { mnemonic := "RET", operands := [] } ∧
  (∀ rest, decode (0x11#8 :: rest) = .ok (.ret, rest)) ∧
  ∀ s : State,
    (s.sp.toNat < s.memSize → ∃ t, exec .ret s = .next t ∧
      t.pc.toNat = (s.mem.read s.sp.toNat).toNat ∧ t.sp.toNat = (s.sp.toNat + 1) % 256 ∧
      (∀ k, k ≠ 7 → t.reg k = s.reg k) ∧ sameMem s t ∧ t.flags = s.flags ∧ t.runState = s.runState ∧ sameOut s t ∧
      retires s t) ∧
    (s.memSize ≤ s.sp.toNat → exec .ret s = .next (faultedWith s 2#2 3#3 0x11#8 (zext9 s.sp)))

/-- 45_branch.md R77 to R80: the dispatcher. JMP is always taken, JEQ on E, JNE on not E; a taken jump sets `pc` to the
register, another to `pc + 2`; nothing else changes, no jump reads L or G, and a target outside memory faults at the next
fetch. -/
def Obligations.JumpsFollowTheDispatcher : Prop :=
  ∀ (r : RegIx) (s : State) (i : Instr) (taken : Bool),
    (i = .jmp (regByte r) ∧ taken = true) ∨ (i = .jeq (regByte r) ∧ taken = s.flags.e) ∨
      (i = .jne (regByte r) ∧ taken = !s.flags.e) →
    ∃ t, exec i s = .next t ∧
      (taken = true → t.pc.toNat = (s.reg r).toNat ∧
        (s.memSize ≤ (s.reg r).toNat → t.fetch = .error (.outOfBoundsAccess .fetch t.pc, 0#8))) ∧
      (taken = false → t.pc = s.pc + 2#9) ∧
      (∀ l g : Bool, exec i { s with flags := { s.flags with l := l, g := g } } =
        .next { t with flags := { s.flags with l := l, g := g } }) ∧
      sameRegs s t ∧ t.flags = s.flags ∧ sameMem s t ∧ t.runState = s.runState ∧ sameOut s t ∧ retires s t

/-- 43_stack.md R73 (the source's property E5): PUSH r and then POP r leaves every register, SP included, as it was, for
every r, R7 too. -/
def Obligations.PushThenPopRestoresRegisters : Prop :=
  ∀ (r : RegIx) (s : State), s.pushAddr.toNat < s.memSize →
    ∃ t u, exec (.push (regByte r)) s = .next t ∧ exec (.pop (regByte r)) t = .next u ∧
      u.regs = s.regs ∧ u.pc = s.pc + 4#9

/-- 44_subroutine.md R75 (the source's property E6): a RET with SP and the pushed byte as CALL left them returns to the
instruction after the CALL's operand, with SP as it was before the CALL. -/
def Obligations.RetUndoesCall : Prop :=
  ∀ (r : RegIx) (s : State), s.pc.toNat + 2 ≤ 255 → s.pushAddr.toNat < s.memSize →
    ∃ t, exec (.call (regByte r)) s = .next t ∧
      ∀ u : State, u.sp = t.sp → u.mem.read t.sp.toNat = t.mem.read t.sp.toNat → u.params = s.params →
        ∃ v, exec .ret u = .next v ∧ v.pc = s.pc + 2#9 ∧ v.sp = s.sp

/-! ## Encoding -/

/-- 30_encoding.md R39, R43, R46: decoding and encoding agree in both directions, for every instruction with every
operand byte, whatever follows. -/
def Obligations.DecodeAndEncodeAgree : Prop :=
  ∀ (bs : List Byte) (i : Instr) (rest : List Byte), decode bs = .ok (i, rest) ↔ bs = encode i ++ rest

/-- 30_encoding.md R42, R43, R45, with the spec's general-knowledge opcode values (log 2): the 13 bytes are the only
opcodes, every other byte is rejected by name, and a missing operand byte is named. -/
def Obligations.EveryOtherOpcodeIsIllegal : Prop :=
  ∀ (op : Byte) (rest : List Byte),
    (decode (op :: rest) = .error (.illegalOpcode op) ↔
      op.toNat ∉ [0x01, 0x82, 0x47, 0xA2, 0xA0, 0x45, 0x46, 0x50, 0x11, 0xA7, 0x55, 0x56, 0x54]) ∧
    (∀ o, opOfByte op = some o →
      ((∃ i rest', decode (op :: rest) = .ok (i, rest')) ↔ o.operandCount ≤ rest.length) ∧
      (rest.length < o.operandCount →
        decode (op :: rest) = .error (.missingOperand op (rest.length + 1))))

/-- Every row of the table of 30_encoding.md R42, written out byte by byte; the opcode values but RET's are the spec's
general-knowledge ones (PRESUMED, log 2). -/
def Obligations.WrittenWordsDecode : Prop :=
  decode [0b00000001#8] = .ok (.hlt, []) ∧
  decode [0b10000010#8, 3#8, 255#8] = .ok (.ldi 3#8 255#8, []) ∧
  decode [0b01000111#8, 7#8] = .ok (.prn 7#8, []) ∧
  decode [0b10100010#8, 0#8, 1#8] = .ok (.mul 0#8 1#8, []) ∧
  decode [0b10100000#8, 1#8, 2#8] = .ok (.add 1#8 2#8, []) ∧
  decode [0b01000101#8, 2#8] = .ok (.push 2#8, []) ∧
  decode [0b01000110#8, 3#8] = .ok (.pop 3#8, []) ∧
  decode [0b01010000#8, 1#8] = .ok (.call 1#8, []) ∧
  decode [0b00010001#8] = .ok (.ret, []) ∧
  decode [0b10100111#8, 4#8, 5#8] = .ok (.cmp 4#8 5#8, []) ∧
  decode [0b01010101#8, 5#8] = .ok (.jeq 5#8, []) ∧
  decode [0b01010110#8, 6#8] = .ok (.jne 6#8, []) ∧
  decode [0b01010100#8, 0#8] = .ok (.jmp 0#8, [])

/-- 30_encoding.md R44, the reference layout AABCDDDD of the spec's general knowledge (log 2): bits 7:6 are the operand
count, bit 5 marks the ALU's instructions, bit 4 those that set the pc. -/
def Obligations.OpcodeBitsMatchTheReferenceLayout : Prop :=
  ∀ o : Op, (opcodeOf o).toNat / 64 = o.operandCount ∧
    ((opcodeOf o).getLsbD 5 = true ↔ o = .add ∨ o = .mul ∨ o = .cmp) ∧
    ((opcodeOf o).getLsbD 4 = true ↔ o = .call ∨ o = .ret ∨ o = .jmp ∨ o = .jeq ∨ o = .jne)

/-! ## Outputs -/

/-- 10_state.md R14, R18, 70_reset_and_hazards.md R97, 60_exceptions.md R96: `fl_o`, `state_o`, `obs_data` and the exit
status. The bit order of `fl_o` is the spec's general knowledge (PRESUMED, log 2); while RUNNING the ports follow the
state (70_reset_and_hazards.md R102, log 12). -/
def Obligations.OutputPortsReportTheState : Prop :=
  ∀ s : State,
    s.flO.toNat = 4 * s.flags.l.toNat + 2 * s.flags.g.toNat + s.flags.e.toNat ∧
    (RunState.idle.code = 0#3 ∧ RunState.running.code = 1#3 ∧ RunState.halted.code = 2#3 ∧
      RunState.faulted.code = 3#3 ∧ RunState.stopped.code = 4#3 ∧ s.runState.code.toNat ≤ 4) ∧
    (∀ a : Byte, (a.toNat < s.memSize → s.obsData a = s.mem.read a.toNat) ∧
      (s.memSize ≤ a.toNat → s.obsData a = 0#8)) ∧
    (s.exitStatus = some 0 ↔ s.runState = .halted) ∧ (s.exitStatus = some 1 ↔ s.runState = .faulted)
end

