-- ==== Sys2Proof/Laws/Memory.lean ====
section
/-! SUPPORT. The laws of memory: read after write, every other cell untouched, the canonical form kept, and equal
canonical memories are equal data. -/

namespace Sys2Proof.Machine

@[simp] theorem Memory.read_nil (a : Nat) : Memory.read [] a = 0#8 := rfl

theorem Memory.read_cons (c : Host.Cell) (m : Memory) (a : Nat) :
    Memory.read (c :: m) a = if c.1 = a then c.2 else Memory.read m a := rfl

/-- A cell of no listed address reads 0. -/
theorem Memory.read_eq_zero (m : Memory) (a : Nat) (h : ∀ c ∈ m, c.1 ≠ a) : Memory.read m a = 0#8 := by
  induction m with
  | nil => rfl
  | cons c m ih =>
    rw [Memory.read_cons, if_neg (h c (by simp))]
    exact ih fun d hd => h d (by simp [hd])

theorem Memory.read_erase (m : Memory) (a b : Nat) :
    (m.erase a).read b = if b = a then 0#8 else m.read b := by
  induction m with
  | nil => simp [Memory.erase]
  | cons c m ih =>
    unfold Memory.erase at ih ⊢
    by_cases hc : c.1 = a <;> by_cases hb : b = a
    · simp [hc, hb] at ih ⊢; exact ih
    · simp [hc, Memory.read_cons, hb, Ne.symm hb] at ih ⊢; exact ih
    · subst hb; simp [hc, Memory.read_cons] at ih ⊢; exact ih
    · simp only [hb, if_false] at ih ⊢
      simp [hc, Memory.read_cons, ih]

theorem Memory.read_place (m : Memory) (c : Host.Cell) (h : ∀ d ∈ m, d.1 ≠ c.1) (b : Nat) :
    (Memory.place c m).read b = if b = c.1 then c.2 else m.read b := by
  induction m with
  | nil => simp [Memory.place, Memory.read_cons, eq_comm]
  | cons d m ih =>
    have hd : d.1 ≠ c.1 := h d (by simp)
    have ih := ih fun e he => h e (by simp [he])
    unfold Memory.place
    split
    · simp [Memory.read_cons, eq_comm]
    · rw [Memory.read_cons, ih, Memory.read_cons]
      by_cases hb : b = c.1
      · subst hb; simp [hd]
      · simp [hb]

theorem Memory.erase_ne (m : Memory) (a : Nat) : ∀ d ∈ m.erase a, d.1 ≠ a := by
  intro d hd
  simpa [Memory.erase] using (List.mem_filter.mp hd).2

/-- Everything a write does to what memory reads as (20_memory.md R24, R33). -/
@[simp] theorem Memory.read_write (m : Memory) (a : Nat) (v : Byte) (b : Nat) :
    (m.write a v).read b = if b = a then v else m.read b := by
  unfold Memory.write
  split
  · next h => rw [Memory.read_erase, h]
  · rw [Memory.read_place _ _ (Memory.erase_ne m a), Memory.read_erase]
    by_cases h : b = a <;> simp [h]

theorem Memory.mem_place (c d : Host.Cell) (m : Memory) : d ∈ Memory.place c m ↔ d = c ∨ d ∈ m := by
  induction m with
  | nil => simp [Memory.place]
  | cons e m ih =>
    unfold Memory.place
    split
    · simp
    · simp only [List.mem_cons, ih]; tauto

/-- A cell a write leaves in memory is the written one or an old one. -/
theorem Memory.mem_write (m : Memory) (a : Nat) (v : Byte) (d : Host.Cell) (h : d ∈ m.write a v) :
    d = (a, v) ∨ d ∈ m := by
  unfold Memory.write at h
  split at h
  · exact .inr (List.mem_filter.mp h).1
  · rcases (Memory.mem_place _ _ _).mp h with h | h
    · exact .inl h
    · exact .inr (List.mem_filter.mp h).1

theorem Memory.place_pairwise (c : Host.Cell) (m : Memory) (h : m.Pairwise (fun c d => c.1 < d.1))
    (hne : ∀ d ∈ m, d.1 ≠ c.1) : (Memory.place c m).Pairwise (fun c d => c.1 < d.1) := by
  induction m with
  | nil => simp [Memory.place]
  | cons d m ih =>
    have hd := List.pairwise_cons.mp h
    unfold Memory.place
    split
    · next hlt =>
      refine List.pairwise_cons.mpr ⟨fun e he => ?_, h⟩
      rcases List.mem_cons.mp he with rfl | he
      · exact hlt
      · exact Nat.lt_trans hlt (hd.1 e he)
    · next hlt =>
      have hcd : d.1 < c.1 := by have := hne d (by simp); omega
      refine List.pairwise_cons.mpr ⟨fun e he => ?_, ih hd.2 fun e he => hne e (by simp [he])⟩
      rcases (Memory.mem_place _ _ _).mp he with rfl | he
      · exact hcd
      · exact hd.1 e he

/-- A write keeps the canonical form. -/
theorem Memory.write_wf (m : Memory) (a : Nat) (v : Byte) (h : m.wf) : (m.write a v).wf := by
  have hp : (m.erase a).Pairwise (fun c d => c.1 < d.1) := h.1.filter _
  constructor
  · unfold Memory.write
    split
    · exact hp
    · exact Memory.place_pairwise _ _ hp (Memory.erase_ne m a)
  · intro d hd
    by_cases hv : v = 0#8
    · rw [Memory.write, if_pos hv] at hd
      exact h.2 d (List.mem_filter.mp hd).1
    · rcases Memory.mem_write m a v d hd with rfl | hd
      · exact hv
      · exact h.2 d hd

/-- A write below a bound keeps every cell below it. -/
theorem Memory.write_bounded (m : Memory) (a : Nat) (v : Byte) (n : Nat) (ha : a < n)
    (h : ∀ c ∈ m, c.1 < n) : ∀ c ∈ m.write a v, c.1 < n := by
  intro c hc
  rcases Memory.mem_write m a v c hc with rfl | hc
  · exact ha
  · exact h c hc

/-- The empty memory is canonical. -/
theorem Memory.nil_wf : Memory.wf [] := ⟨List.Pairwise.nil, fun _ h => nomatch h⟩

/-- The tail of a canonical memory is canonical. -/
theorem Memory.wf_of_tail (c : Host.Cell) (m : Memory) (h : Memory.wf (c :: m)) : Memory.wf m :=
  ⟨(List.pairwise_cons.mp h.1).2, fun d hd => h.2 d (by simp [hd])⟩

/-- In a canonical memory a listed cell reads as listed. -/
theorem Memory.read_of_mem (m : Memory) (h : m.wf) (c : Host.Cell) (hc : c ∈ m) : m.read c.1 = c.2 := by
  induction m with
  | nil => simp at hc
  | cons d m ih =>
    rw [Memory.read_cons]
    rcases List.mem_cons.mp hc with rfl | hc
    · simp
    · have hlt := (List.pairwise_cons.mp h.1).1 c hc
      rw [if_neg (by omega)]
      exact ih (Memory.wf_of_tail _ _ h) hc

end Sys2Proof.Machine
end

