-- ==== Sys2Proof/Laws/State.lean ====
section
/-! SUPPORT. One lemma per field per named update of State, true by rfl, so that no proof unfolds a record update;
and the register-file laws. -/

namespace Sys2Proof.Machine

@[simp] theorem State.sp_eq (s : State) : s.sp = s.reg 7 := rfl
@[simp] theorem State.setSp_eq (s : State) (v : Byte) : s.setSp v = s.setReg 7 v := rfl
@[simp] theorem State.returnAddr_eq (s : State) : s.returnAddr = s.pc.toNat + 2 := rfl

/-! ### setReg -/
@[simp] theorem State.setReg_pc (s : State) (i : RegIx) (v : Byte) : (s.setReg i v).pc = s.pc := rfl
@[simp] theorem State.setReg_flags (s : State) (i : RegIx) (v : Byte) : (s.setReg i v).flags = s.flags := rfl
@[simp] theorem State.setReg_mem (s : State) (i : RegIx) (v : Byte) : (s.setReg i v).mem = s.mem := rfl
@[simp] theorem State.setReg_runState (s : State) (i : RegIx) (v : Byte) : (s.setReg i v).runState = s.runState := rfl
@[simp] theorem State.setReg_fault (s : State) (i : RegIx) (v : Byte) : (s.setReg i v).fault = s.fault := rfl
@[simp] theorem State.setReg_icount (s : State) (i : RegIx) (v : Byte) : (s.setReg i v).icount = s.icount := rfl
@[simp] theorem State.setReg_outPending (s : State) (i : RegIx) (v : Byte) : (s.setReg i v).outPending = s.outPending := rfl
@[simp] theorem State.setReg_trace (s : State) (i : RegIx) (v : Byte) : (s.setReg i v).trace = s.trace := rfl
@[simp] theorem State.setReg_ldErr (s : State) (i : RegIx) (v : Byte) : (s.setReg i v).ldErr = s.ldErr := rfl
@[simp] theorem State.setReg_params (s : State) (i : RegIx) (v : Byte) : (s.setReg i v).params = s.params := rfl
@[simp] theorem State.setReg_pins (s : State) (i : RegIx) (v : Byte) : (s.setReg i v).pins = s.pins := rfl
@[simp] theorem State.setReg_inputs (s : State) (i : RegIx) (v : Byte) : (s.setReg i v).inputs = s.inputs := rfl
@[simp] theorem State.setReg_memSize (s : State) (i : RegIx) (v : Byte) : (s.setReg i v).memSize = s.memSize := (rfl)

/-! ### setPc -/
@[simp] theorem State.setPc_regs (s : State) (p : Word9) : (s.setPc p).regs = s.regs := rfl
@[simp] theorem State.setPc_pc (s : State) (p : Word9) : (s.setPc p).pc = p := rfl
@[simp] theorem State.setPc_flags (s : State) (p : Word9) : (s.setPc p).flags = s.flags := rfl
@[simp] theorem State.setPc_mem (s : State) (p : Word9) : (s.setPc p).mem = s.mem := rfl
@[simp] theorem State.setPc_runState (s : State) (p : Word9) : (s.setPc p).runState = s.runState := rfl
@[simp] theorem State.setPc_fault (s : State) (p : Word9) : (s.setPc p).fault = s.fault := rfl
@[simp] theorem State.setPc_icount (s : State) (p : Word9) : (s.setPc p).icount = s.icount := rfl
@[simp] theorem State.setPc_outPending (s : State) (p : Word9) : (s.setPc p).outPending = s.outPending := rfl
@[simp] theorem State.setPc_trace (s : State) (p : Word9) : (s.setPc p).trace = s.trace := rfl
@[simp] theorem State.setPc_ldErr (s : State) (p : Word9) : (s.setPc p).ldErr = s.ldErr := rfl
@[simp] theorem State.setPc_params (s : State) (p : Word9) : (s.setPc p).params = s.params := rfl
@[simp] theorem State.setPc_pins (s : State) (p : Word9) : (s.setPc p).pins = s.pins := rfl
@[simp] theorem State.setPc_inputs (s : State) (p : Word9) : (s.setPc p).inputs = s.inputs := rfl
@[simp] theorem State.setPc_reg (s : State) (p : Word9) (k : RegIx) : (s.setPc p).reg k = s.reg k := rfl
@[simp] theorem State.setPc_memSize (s : State) (p : Word9) : (s.setPc p).memSize = s.memSize := (rfl)

/-! ### raise -/
@[simp] theorem State.raise_regs (s : State) (c : FaultCause) (op : Byte) : (s.raise c op).regs = s.regs := rfl
@[simp] theorem State.raise_pc (s : State) (c : FaultCause) (op : Byte) : (s.raise c op).pc = s.pc := rfl
@[simp] theorem State.raise_flags (s : State) (c : FaultCause) (op : Byte) : (s.raise c op).flags = s.flags := rfl
@[simp] theorem State.raise_mem (s : State) (c : FaultCause) (op : Byte) : (s.raise c op).mem = s.mem := rfl
@[simp] theorem State.raise_runState (s : State) (c : FaultCause) (op : Byte) : (s.raise c op).runState = .faulted := rfl
@[simp] theorem State.raise_fault (s : State) (c : FaultCause) (op : Byte) : (s.raise c op).fault = c.record s.pc op := rfl
@[simp] theorem State.raise_icount (s : State) (c : FaultCause) (op : Byte) : (s.raise c op).icount = s.icount := rfl
@[simp] theorem State.raise_outPending (s : State) (c : FaultCause) (op : Byte) : (s.raise c op).outPending = s.outPending := rfl
@[simp] theorem State.raise_trace (s : State) (c : FaultCause) (op : Byte) : (s.raise c op).trace = s.trace := rfl
@[simp] theorem State.raise_ldErr (s : State) (c : FaultCause) (op : Byte) : (s.raise c op).ldErr = s.ldErr := rfl
@[simp] theorem State.raise_params (s : State) (c : FaultCause) (op : Byte) : (s.raise c op).params = s.params := rfl
@[simp] theorem State.raise_pins (s : State) (c : FaultCause) (op : Byte) : (s.raise c op).pins = s.pins := rfl
@[simp] theorem State.raise_inputs (s : State) (c : FaultCause) (op : Byte) : (s.raise c op).inputs = s.inputs := rfl
@[simp] theorem State.raise_reg (s : State) (c : FaultCause) (op : Byte) (k : RegIx) : (s.raise c op).reg k = s.reg k := rfl
@[simp] theorem State.raise_memSize (s : State) (c : FaultCause) (op : Byte) : (s.raise c op).memSize = s.memSize := (rfl)

/-! ### retire -/
@[simp] theorem State.retire_regs (s : State) : (s.retire).regs = s.regs := rfl
@[simp] theorem State.retire_pc (s : State) : (s.retire).pc = s.pc := rfl
@[simp] theorem State.retire_flags (s : State) : (s.retire).flags = s.flags := rfl
@[simp] theorem State.retire_mem (s : State) : (s.retire).mem = s.mem := rfl
@[simp] theorem State.retire_runState (s : State) : (s.retire).runState = s.runState := rfl
@[simp] theorem State.retire_fault (s : State) : (s.retire).fault = s.fault := rfl
@[simp] theorem State.retire_icount (s : State) : (s.retire).icount = icountNext s.icount := rfl
@[simp] theorem State.retire_outPending (s : State) : (s.retire).outPending = s.outPending := rfl
@[simp] theorem State.retire_trace (s : State) : (s.retire).trace = s.trace := rfl
@[simp] theorem State.retire_ldErr (s : State) : (s.retire).ldErr = s.ldErr := rfl
@[simp] theorem State.retire_params (s : State) : (s.retire).params = s.params := rfl
@[simp] theorem State.retire_pins (s : State) : (s.retire).pins = s.pins := rfl
@[simp] theorem State.retire_inputs (s : State) : (s.retire).inputs = s.inputs := rfl
@[simp] theorem State.retire_reg (s : State) (k : RegIx) : (s.retire).reg k = s.reg k := rfl
@[simp] theorem State.retire_memSize (s : State) : (s.retire).memSize = s.memSize := (rfl)

/-! ### emit -/
@[simp] theorem State.emit_regs (s : State) (v : Byte) : (s.emit v).regs = s.regs := rfl
@[simp] theorem State.emit_pc (s : State) (v : Byte) : (s.emit v).pc = s.pc := rfl
@[simp] theorem State.emit_flags (s : State) (v : Byte) : (s.emit v).flags = s.flags := rfl
@[simp] theorem State.emit_mem (s : State) (v : Byte) : (s.emit v).mem = s.mem := rfl
@[simp] theorem State.emit_runState (s : State) (v : Byte) : (s.emit v).runState = s.runState := rfl
@[simp] theorem State.emit_fault (s : State) (v : Byte) : (s.emit v).fault = s.fault := rfl
@[simp] theorem State.emit_icount (s : State) (v : Byte) : (s.emit v).icount = s.icount := rfl
@[simp] theorem State.emit_outPending (s : State) (v : Byte) : (s.emit v).outPending = false := rfl
@[simp] theorem State.emit_trace (s : State) (v : Byte) : (s.emit v).trace = s.trace ++ [v] := rfl
@[simp] theorem State.emit_ldErr (s : State) (v : Byte) : (s.emit v).ldErr = s.ldErr := rfl
@[simp] theorem State.emit_params (s : State) (v : Byte) : (s.emit v).params = s.params := rfl
@[simp] theorem State.emit_pins (s : State) (v : Byte) : (s.emit v).pins = s.pins := rfl
@[simp] theorem State.emit_inputs (s : State) (v : Byte) : (s.emit v).inputs = s.inputs := rfl
@[simp] theorem State.emit_reg (s : State) (v : Byte) (k : RegIx) : (s.emit v).reg k = s.reg k := rfl
@[simp] theorem State.emit_memSize (s : State) (v : Byte) : (s.emit v).memSize = s.memSize := (rfl)

/-! ### hold -/
@[simp] theorem State.hold_regs (s : State) : (s.hold).regs = s.regs := rfl
@[simp] theorem State.hold_pc (s : State) : (s.hold).pc = s.pc := rfl
@[simp] theorem State.hold_flags (s : State) : (s.hold).flags = s.flags := rfl
@[simp] theorem State.hold_mem (s : State) : (s.hold).mem = s.mem := rfl
@[simp] theorem State.hold_runState (s : State) : (s.hold).runState = s.runState := rfl
@[simp] theorem State.hold_fault (s : State) : (s.hold).fault = s.fault := rfl
@[simp] theorem State.hold_icount (s : State) : (s.hold).icount = s.icount := rfl
@[simp] theorem State.hold_outPending (s : State) : (s.hold).outPending = true := rfl
@[simp] theorem State.hold_trace (s : State) : (s.hold).trace = s.trace := rfl
@[simp] theorem State.hold_ldErr (s : State) : (s.hold).ldErr = s.ldErr := rfl
@[simp] theorem State.hold_params (s : State) : (s.hold).params = s.params := rfl
@[simp] theorem State.hold_pins (s : State) : (s.hold).pins = s.pins := rfl
@[simp] theorem State.hold_inputs (s : State) : (s.hold).inputs = s.inputs := rfl
@[simp] theorem State.hold_reg (s : State) (k : RegIx) : (s.hold).reg k = s.reg k := rfl
@[simp] theorem State.hold_memSize (s : State) : (s.hold).memSize = s.memSize := (rfl)

/-! ### setMem -/
@[simp] theorem State.setMem_regs (s : State) (m : Memory) : (s.setMem m).regs = s.regs := rfl
@[simp] theorem State.setMem_pc (s : State) (m : Memory) : (s.setMem m).pc = s.pc := rfl
@[simp] theorem State.setMem_flags (s : State) (m : Memory) : (s.setMem m).flags = s.flags := rfl
@[simp] theorem State.setMem_mem (s : State) (m : Memory) : (s.setMem m).mem = m := rfl
@[simp] theorem State.setMem_runState (s : State) (m : Memory) : (s.setMem m).runState = s.runState := rfl
@[simp] theorem State.setMem_fault (s : State) (m : Memory) : (s.setMem m).fault = s.fault := rfl
@[simp] theorem State.setMem_icount (s : State) (m : Memory) : (s.setMem m).icount = s.icount := rfl
@[simp] theorem State.setMem_outPending (s : State) (m : Memory) : (s.setMem m).outPending = s.outPending := rfl
@[simp] theorem State.setMem_trace (s : State) (m : Memory) : (s.setMem m).trace = s.trace := rfl
@[simp] theorem State.setMem_ldErr (s : State) (m : Memory) : (s.setMem m).ldErr = s.ldErr := rfl
@[simp] theorem State.setMem_params (s : State) (m : Memory) : (s.setMem m).params = s.params := rfl
@[simp] theorem State.setMem_pins (s : State) (m : Memory) : (s.setMem m).pins = s.pins := rfl
@[simp] theorem State.setMem_inputs (s : State) (m : Memory) : (s.setMem m).inputs = s.inputs := rfl
@[simp] theorem State.setMem_reg (s : State) (m : Memory) (k : RegIx) : (s.setMem m).reg k = s.reg k := rfl
@[simp] theorem State.setMem_memSize (s : State) (m : Memory) : (s.setMem m).memSize = s.memSize := (rfl)

/-! ### setFlags -/
@[simp] theorem State.setFlags_regs (s : State) (f : Flags) : (s.setFlags f).regs = s.regs := rfl
@[simp] theorem State.setFlags_pc (s : State) (f : Flags) : (s.setFlags f).pc = s.pc := rfl
@[simp] theorem State.setFlags_flags (s : State) (f : Flags) : (s.setFlags f).flags = f := rfl
@[simp] theorem State.setFlags_mem (s : State) (f : Flags) : (s.setFlags f).mem = s.mem := rfl
@[simp] theorem State.setFlags_runState (s : State) (f : Flags) : (s.setFlags f).runState = s.runState := rfl
@[simp] theorem State.setFlags_fault (s : State) (f : Flags) : (s.setFlags f).fault = s.fault := rfl
@[simp] theorem State.setFlags_icount (s : State) (f : Flags) : (s.setFlags f).icount = s.icount := rfl
@[simp] theorem State.setFlags_outPending (s : State) (f : Flags) : (s.setFlags f).outPending = s.outPending := rfl
@[simp] theorem State.setFlags_trace (s : State) (f : Flags) : (s.setFlags f).trace = s.trace := rfl
@[simp] theorem State.setFlags_ldErr (s : State) (f : Flags) : (s.setFlags f).ldErr = s.ldErr := rfl
@[simp] theorem State.setFlags_params (s : State) (f : Flags) : (s.setFlags f).params = s.params := rfl
@[simp] theorem State.setFlags_pins (s : State) (f : Flags) : (s.setFlags f).pins = s.pins := rfl
@[simp] theorem State.setFlags_inputs (s : State) (f : Flags) : (s.setFlags f).inputs = s.inputs := rfl
@[simp] theorem State.setFlags_reg (s : State) (f : Flags) (k : RegIx) : (s.setFlags f).reg k = s.reg k := rfl
@[simp] theorem State.setFlags_memSize (s : State) (f : Flags) : (s.setFlags f).memSize = s.memSize := (rfl)

/-! ### setRun -/
@[simp] theorem State.setRun_regs (s : State) (r : RunState) : (s.setRun r).regs = s.regs := rfl
@[simp] theorem State.setRun_pc (s : State) (r : RunState) : (s.setRun r).pc = s.pc := rfl
@[simp] theorem State.setRun_flags (s : State) (r : RunState) : (s.setRun r).flags = s.flags := rfl
@[simp] theorem State.setRun_mem (s : State) (r : RunState) : (s.setRun r).mem = s.mem := rfl
@[simp] theorem State.setRun_runState (s : State) (r : RunState) : (s.setRun r).runState = r := rfl
@[simp] theorem State.setRun_fault (s : State) (r : RunState) : (s.setRun r).fault = s.fault := rfl
@[simp] theorem State.setRun_icount (s : State) (r : RunState) : (s.setRun r).icount = s.icount := rfl
@[simp] theorem State.setRun_outPending (s : State) (r : RunState) : (s.setRun r).outPending = s.outPending := rfl
@[simp] theorem State.setRun_trace (s : State) (r : RunState) : (s.setRun r).trace = s.trace := rfl
@[simp] theorem State.setRun_ldErr (s : State) (r : RunState) : (s.setRun r).ldErr = s.ldErr := rfl
@[simp] theorem State.setRun_params (s : State) (r : RunState) : (s.setRun r).params = s.params := rfl
@[simp] theorem State.setRun_pins (s : State) (r : RunState) : (s.setRun r).pins = s.pins := rfl
@[simp] theorem State.setRun_inputs (s : State) (r : RunState) : (s.setRun r).inputs = s.inputs := rfl
@[simp] theorem State.setRun_reg (s : State) (r : RunState) (k : RegIx) : (s.setRun r).reg k = s.reg k := rfl
@[simp] theorem State.setRun_memSize (s : State) (r : RunState) : (s.setRun r).memSize = s.memSize := (rfl)
/-! ### the register file -/
/-- A read after a write of a register. -/
@[simp] theorem State.setReg_reg (s : State) (i k : RegIx) (v : Byte) :
    (s.setReg i v).reg k = if k = i then v else s.reg k := by
  unfold State.reg State.setReg
  by_cases h : k = i
  · subst h; simp
  · have h' : i.val ≠ k.val := fun e => h (Fin.ext e.symm)
    simp [h, h']

/-- Two register files that read alike are equal. -/
theorem regs_ext (v w : Vector Byte 8) (h : ∀ k : RegIx, v[k] = w[k]) : v = w := by
  apply Vector.ext
  intro i hi
  exact h ⟨i, hi⟩

/-- The reset values of the registers (10_state.md R22). -/
theorem resetRegs_get (p : Params) (k : RegIx) :
    (resetRegs p)[k] = if k = 7 then p.spReset else 0#8 := by
  revert k; intro k
  fin_cases k <;> rfl

end Sys2Proof.Machine
end

