-- ==== Sys2Proof/Laws/Ops.lean ====
section
/-! SUPPORT. One lemma per outcome of each shared operation: operand checks, memory accesses, commit, the saturating
count, and the opcode map. -/

namespace Sys2Proof.Machine

/-! ### operands -/

@[simp] theorem regByte_toNat (i : RegIx) : (regByte i).toNat = i.val := by
  have := i.isLt
  simp only [regByte, BitVec.toNat_ofNat]
  omega

/-- A valid register byte decodes to its register. -/
@[simp] theorem regIndex_regByte (i : RegIx) : regIndex (regByte i) = .ok i := by
  have := i.isLt
  simp [regIndex]

/-- A byte below 8 is some register's byte. -/
theorem eq_regByte (b : Byte) (h : b.toNat < 8) : b = regByte ⟨b.toNat, h⟩ := by
  apply BitVec.eq_of_toNat_eq; simp

/-- A byte of 8 or more raises REGISTER (30_encoding.md R40). -/
theorem regIndex_bad (b : Byte) (h : 8 ≤ b.toNat) :
    regIndex b = .error (.outOfBoundsAccess .register (zext9 b)) := by
  simp [regIndex]; omega

/-- The two outcomes of the register operand decoder. -/
theorem regIndex_cases (b : Byte) :
    (∃ i : RegIx, b = regByte i) ∨ (8 ≤ b.toNat ∧ regIndex b = .error (.outOfBoundsAccess .register (zext9 b))) := by
  by_cases h : b.toNat < 8
  · exact .inl ⟨_, eq_regByte b h⟩
  · exact .inr ⟨by omega, regIndex_bad b (by omega)⟩

@[simp] theorem regByte_wellFormed (i : RegIx) : regByteOk (regByte i) = true := by
  have := i.isLt
  simp [regByteOk, Config.nregs]

@[simp] theorem zext9_toNat (b : Byte) : (zext9 b).toNat = b.toNat := by
  have := b.isLt
  simp only [zext9, BitVec.toNat_ofNat]
  omega

@[simp] theorem u8_toNat (n : Nat) : (u8 n).toNat = n % 256 := by simp [u8]

/-! ### memory accesses -/

theorem State.memRead_ok (s : State) (k : AccessKind) (a : Nat) (h : a < s.memSize) :
    s.memRead k a = .ok (s.mem.read a) := by simp [State.memRead, h]

theorem State.memRead_error (s : State) (k : AccessKind) (a : Nat) (h : s.memSize ≤ a) :
    s.memRead k a = .error (.outOfBoundsAccess k (BitVec.ofNat 9 a)) := by
  simp [State.memRead]; omega

theorem State.memWrite_ok (s : State) (k : AccessKind) (a : Nat) (v : Byte) (h : a < s.memSize) :
    s.memWrite k a v = .ok (s.setMem (s.mem.write a v)) := by simp [State.memWrite, h]

theorem State.memWrite_error (s : State) (k : AccessKind) (a : Nat) (v : Byte) (h : s.memSize ≤ a) :
    s.memWrite k a v = .error (.outOfBoundsAccess k (BitVec.ofNat 9 a)) := by
  simp [State.memWrite]; omega

/-- A stack access at a byte address outside memory names that address (60_exceptions.md R81). -/
theorem State.memRead_byte_error (s : State) (k : AccessKind) (b : Byte) (h : s.memSize ≤ b.toNat) :
    s.memRead k b.toNat = .error (.outOfBoundsAccess k (zext9 b)) := s.memRead_error k b.toNat h

theorem State.memWrite_byte_error (s : State) (k : AccessKind) (b v : Byte) (h : s.memSize ≤ b.toNat) :
    s.memWrite k b.toNat v = .error (.outOfBoundsAccess k (zext9 b)) := s.memWrite_error k b.toNat v h

/-- `MEM_SIZE` is 255 or 256. -/
theorem State.memSize_cases (s : State) : s.memSize = 256 ∨ s.memSize = 255 := by
  unfold State.memSize; cases s.params.memSize <;> simp [MemSize.toNat]

theorem State.memSize_le (s : State) : s.memSize ≤ 256 := by
  rcases s.memSize_cases with h | h <;> omega

/-! ### commit -/

@[simp] theorem complete_ok (o : Op) (s t : State) : complete o s (.ok t) = .next t.retire := rfl

@[simp] theorem complete_error (o : Op) (s : State) (c : FaultCause) :
    complete o s (.error c) = .next (s.raise c (opcodeOf o)) := rfl

/-- The count goes up by one and saturates (40_engine.md R57). -/
theorem icountNext_toNat (n : BitVec 32) : (icountNext n).toNat = min (n.toNat + 1) 4294967295 := by
  have := n.isLt
  rw [icountNext, BitVec.toNat_ofNat, Config.icountMax]
  exact Nat.mod_eq_of_lt (by omega)

/-- A taken fault leaves a fault code (60_exceptions.md R81). -/
theorem FaultCause.record_code_ne_zero (c : FaultCause) (p : Word9) (op : Byte) : (c.record p op).code ≠ 0#2 := by
  cases c <;> simp [FaultCause.record]

@[simp] theorem FaultCause.record_pc (c : FaultCause) (p : Word9) (op : Byte) : (c.record p op).pc = p := by
  cases c <;> rfl

/-! ### the opcode map -/

/-- The opcode bytes are distinct and each is found (30_encoding.md R42, R43). -/
@[simp] theorem opOfByte_opcodeOf (o : Op) : opOfByte (opcodeOf o) = some o := by
  cases o <;> rfl

/-- A byte that matches an entry is that entry's opcode. -/
theorem opcodeOf_of_opOfByte (b : Byte) (o : Op) (h : opOfByte b = some o) : b = opcodeOf o := by
  have := List.find?_some h
  simp only [beq_iff_eq] at this
  exact this.symm

end Sys2Proof.Machine
end

