-- ==== Sys2Proof/Laws/Decode.lean ====
section
/-! SUPPORT. The decoder's cases, one lemma per format, and the lengths of encodings. -/

namespace Sys2Proof

/-- An unmatched opcode is rejected by name (30_encoding.md R43). -/
theorem decode_illegal (op : Byte) (rest : List Byte) (h : opOfByte op = none) :
    decode (op :: rest) = .error (.illegalOpcode op) := by
  simp [decode, h]

theorem decode_whole (op : Byte) (o : Op) (i : Instr) (rest : List Byte) (h : opOfByte op = some o)
    (hf : o.form = .whole i) : decode (op :: rest) = .ok (i, rest) := by
  simp [decode, h, hf]

theorem decode_needs1 (op b1 : Byte) (o : Op) (k : Byte → Instr) (rest : List Byte) (h : opOfByte op = some o)
    (hf : o.form = .needs1 k) : decode (op :: b1 :: rest) = .ok (k b1, rest) := by
  simp [decode, h, hf]

theorem decode_needs2 (op b1 b2 : Byte) (o : Op) (k : Byte → Byte → Instr) (rest : List Byte)
    (h : opOfByte op = some o) (hf : o.form = .needs2 k) : decode (op :: b1 :: b2 :: rest) = .ok (k b1 b2, rest) := by
  simp [decode, h, hf]

/-- A decoded byte list starts with a matched opcode. -/
theorem decode_ok_cons (bs : List Byte) (i : Instr) (rest : List Byte) (h : decode bs = .ok (i, rest)) :
    ∃ op o tail, bs = op :: tail ∧ opOfByte op = some o := by
  cases bs with
  | nil => simp [decode] at h
  | cons op tail =>
    cases ho : opOfByte op with
    | none => simp [decode, ho] at h
    | some o => exact ⟨op, o, tail, rfl, ho⟩

/-- The form of an opcode needs as many bytes as its format says (30_encoding.md R39). -/
theorem form_operandCount (o : Op) :
    match o.form with
    | .whole _ => o.operandCount = 0
    | .needs1 _ => o.operandCount = 1
    | .needs2 _ => o.operandCount = 2 := by
  cases o <;> rfl

end Sys2Proof
end

