-- ==== Sys2Proof/Laws/Exec.lean ====
section
/-! SUPPORT. What each instruction does, as one equation per outcome, and what `exec` can do at all, said once
(`exec_outcome`). Later proofs cite these and unfold no meaning. -/

namespace Sys2Proof.Machine

/-! ### a bad register operand -/

theorem aluHandler_badA (sel : BitVec 2) (rA rB : Byte) (s : State) (h : 8 ≤ rA.toNat) :
    aluHandler sel rA rB s = .error (.outOfBoundsAccess .register (zext9 rA)) := by
  simp [aluHandler, regIndex_bad rA h, bind, Except.bind]

theorem aluHandler_badB (sel : BitVec 2) (iA : RegIx) (rB : Byte) (s : State) (h : 8 ≤ rB.toNat) :
    aluHandler sel (regByte iA) rB s = .error (.outOfBoundsAccess .register (zext9 rB)) := by
  simp [aluHandler, regIndex_bad rB h, bind, Except.bind]

theorem ldiHandler_bad (r imm : Byte) (s : State) (h : 8 ≤ r.toNat) :
    ldiHandler r imm s = .error (.outOfBoundsAccess .register (zext9 r)) := by
  simp [ldiHandler, regIndex_bad r h, bind, Except.bind]

theorem prnHandler_bad (r : Byte) (s : State) (h : 8 ≤ r.toNat) :
    prnHandler r s = .error (.outOfBoundsAccess .register (zext9 r)) := by
  simp [prnHandler, regIndex_bad r h, bind, Except.bind]

theorem pushHandler_bad (r : Byte) (s : State) (h : 8 ≤ r.toNat) :
    pushHandler r s = .error (.outOfBoundsAccess .register (zext9 r)) := by
  simp [pushHandler, regIndex_bad r h, bind, Except.bind]

theorem popHandler_bad (r : Byte) (s : State) (h : 8 ≤ r.toNat) :
    popHandler r s = .error (.outOfBoundsAccess .register (zext9 r)) := by
  simp [popHandler, regIndex_bad r h, bind, Except.bind]

theorem callHandler_bad (r : Byte) (s : State) (h : 8 ≤ r.toNat) :
    callHandler r s = .error (.outOfBoundsAccess .register (zext9 r)) := by
  simp [callHandler, regIndex_bad r h, bind, Except.bind]

theorem jumpHandler_bad (j : Jump) (r : Byte) (s : State) (h : 8 ≤ r.toNat) :
    jumpHandler j r s = .error (.outOfBoundsAccess .register (zext9 r)) := by
  simp [jumpHandler, regIndex_bad r h, bind, Except.bind]

/-! ### valid operands -/

theorem exec_hlt (s : State) :
    exec .hlt s = .next ((s.setRun .halted).setPc (s.seqPc 0)).retire := rfl

theorem exec_ldi (r : RegIx) (imm : Byte) (s : State) :
    exec (.ldi (regByte r) imm) s = .next ((s.setReg r imm).setPc (s.seqPc 2)).retire := by
  simp [exec, execLdi, ldiHandler, immediate, bind, Except.bind, pure, Except.pure]

theorem exec_prn_accepted (r : RegIx) (s : State) (h : s.pins.outReady = true) :
    exec (.prn (regByte r)) s = .next ((s.emit (s.reg r)).setPc (s.seqPc 1)).retire := by
  simp [exec, execPrn, prnHandler, h, bind, Except.bind, pure, Except.pure]

theorem exec_prn_held (r : RegIx) (s : State) (h : s.pins.outReady = false) :
    exec (.prn (regByte r)) s = .next s.hold := by
  simp [exec, execPrn, prnHandler, h, bind, Except.bind, pure, Except.pure]

theorem exec_mul (rA rB : RegIx) (s : State) :
    exec (.mul (regByte rA) (regByte rB)) s =
      .next ((s.setReg rA (u8 ((s.reg rA).toNat * (s.reg rB).toNat))).setPc (s.seqPc 2)).retire := by
  simp [exec, execMul, aluHandler, alu, State.writeAlu, bind, Except.bind, pure, Except.pure]

theorem exec_add (rA rB : RegIx) (s : State) :
    exec (.add (regByte rA) (regByte rB)) s =
      .next ((s.setReg rA (u8 ((s.reg rA).toNat + (s.reg rB).toNat))).setPc (s.seqPc 2)).retire := by
  simp [exec, execAdd, aluHandler, alu, State.writeAlu, bind, Except.bind, pure, Except.pure]

theorem exec_cmp (rA rB : RegIx) (s : State) :
    exec (.cmp (regByte rA) (regByte rB)) s =
      .next ((s.setFlags (compareFlags (s.reg rA) (s.reg rB))).setPc (s.seqPc 2)).retire := by
  simp [exec, execCmp, aluHandler, alu, State.writeAlu, bind, Except.bind, pure, Except.pure]

/-- The byte PUSH stores: the register as it is after SP is decremented (43_stack.md R72). -/
theorem exec_push (r : RegIx) (s : State) (h : s.pushAddr.toNat < s.memSize) :
    exec (.push (regByte r)) s =
      .next (((s.setReg 7 s.pushAddr).setMem
        (s.mem.write s.pushAddr.toNat (if r = 7 then s.pushAddr else s.reg r))).setPc (s.seqPc 1)).retire := by
  simp [exec, execPush, pushHandler, State.memWrite_ok, h, bind, Except.bind, pure, Except.pure]

theorem exec_push_stack (r : RegIx) (s : State) (h : s.memSize ≤ s.pushAddr.toNat) :
    exec (.push (regByte r)) s =
      .next (s.raise (.outOfBoundsAccess .stack (zext9 s.pushAddr)) (opcodeOf .push)) := by
  simp [exec, execPush, pushHandler, State.memWrite_byte_error, h, bind, Except.bind]

theorem exec_pop (r : RegIx) (s : State) (h : (s.reg 7).toNat < s.memSize) :
    exec (.pop (regByte r)) s =
      .next (((s.setReg r (s.mem.read (s.reg 7).toNat)).setReg 7
        ((if r = 7 then s.mem.read (s.reg 7).toNat else s.reg 7) + 1#8)).setPc (s.seqPc 1)).retire := by
  have e : ((7 : RegIx) = r) = (r = 7) := propext eq_comm
  simp [exec, execPop, popHandler, State.memRead_ok, h, bind, Except.bind, pure, Except.pure, e]

theorem exec_pop_stack (r : RegIx) (s : State) (h : s.memSize ≤ (s.reg 7).toNat) :
    exec (.pop (regByte r)) s = .next (s.raise (.outOfBoundsAccess .stack (zext9 (s.reg 7))) (opcodeOf .pop)) := by
  simp [exec, execPop, popHandler, State.memRead_byte_error, h, bind, Except.bind]

theorem exec_call (r : RegIx) (s : State) (hr : s.pc.toNat + 2 ≤ 255) (h : s.pushAddr.toNat < s.memSize) :
    exec (.call (regByte r)) s =
      .next (((s.setReg 7 s.pushAddr).setMem (s.mem.write s.pushAddr.toNat (u8 (s.pc.toNat + 2)))).setPc
        (zext9 (if r = 7 then s.pushAddr else s.reg r))).retire := by
  have hr' : ¬ 255 < s.pc.toNat + 2 := by omega
  simp [exec, execCall, callHandler, State.memWrite_ok, h, hr', bind, Except.bind, pure, Except.pure]

theorem exec_call_retaddr (r : RegIx) (s : State) (hr : 255 < s.pc.toNat + 2) :
    exec (.call (regByte r)) s =
      .next (s.raise (.outOfBoundsAccess .retaddr (BitVec.ofNat 9 (s.pc.toNat + 2))) (opcodeOf .call)) := by
  simp [exec, execCall, callHandler, hr, bind, Except.bind, throw, throwThe, MonadExceptOf.throw]

theorem exec_call_stack (r : RegIx) (s : State) (hr : s.pc.toNat + 2 ≤ 255) (h : s.memSize ≤ s.pushAddr.toNat) :
    exec (.call (regByte r)) s =
      .next (s.raise (.outOfBoundsAccess .stack (zext9 s.pushAddr)) (opcodeOf .call)) := by
  have hr' : ¬ 255 < s.pc.toNat + 2 := by omega
  simp [exec, execCall, callHandler, hr', State.memWrite_byte_error, h, bind, Except.bind]

theorem exec_ret (s : State) (h : (s.reg 7).toNat < s.memSize) :
    exec .ret s = .next ((s.setReg 7 (s.reg 7 + 1#8)).setPc (zext9 (s.mem.read (s.reg 7).toNat))).retire := by
  simp [exec, execRet, retHandler, State.memRead_ok, h, bind, Except.bind, pure, Except.pure]

theorem exec_ret_stack (s : State) (h : s.memSize ≤ (s.reg 7).toNat) :
    exec .ret s = .next (s.raise (.outOfBoundsAccess .stack (zext9 (s.reg 7))) (opcodeOf .ret)) := by
  simp [exec, execRet, retHandler, State.memRead_byte_error, h, bind, Except.bind]

/-! ### jumps (45_branch.md R77) -/

theorem jumpHandler_reg (j : Jump) (r : RegIx) (s : State) :
    jumpHandler j (regByte r) s =
      .ok (s.setPc (if j.taken s.flags then zext9 (s.reg r) else s.seqPc 1)) := by
  simp [jumpHandler, bind, Except.bind, pure, Except.pure]

theorem exec_jmp (r : RegIx) (s : State) :
    exec (.jmp (regByte r)) s = .next (s.setPc (zext9 (s.reg r))).retire := by
  simp [exec, execJmp, jumpHandler_reg, Jump.taken]

theorem exec_jeq (r : RegIx) (s : State) :
    exec (.jeq (regByte r)) s = .next (s.setPc (if s.flags.e then zext9 (s.reg r) else s.seqPc 1)).retire := by
  cases h : s.flags.e <;> simp [exec, execJeq, jumpHandler_reg, Jump.taken, h]

theorem exec_jne (r : RegIx) (s : State) :
    exec (.jne (regByte r)) s = .next (s.setPc (if s.flags.e then s.seqPc 1 else zext9 (s.reg r))).retire := by
  cases h : s.flags.e <;> simp [exec, execJne, jumpHandler_reg, Jump.taken, h]

/-! ### what `exec` can do at all -/

/-- What a retiring instruction may have changed before its `icount` goes up (40_engine.md R56 to R58): `u` is the
committed state. -/
structure Effect (i : Instr) (s u : State) : Prop where
  params : u.params = s.params
  pins : u.pins = s.pins
  inputs : u.inputs = s.inputs
  ldErr : u.ldErr = s.ldErr
  fault : u.fault = s.fault
  icount : u.icount = s.icount
  runState : u.runState = if i = .hlt then .halted else s.runState
  outPending : (u.outPending = s.outPending ∧ ∀ r, i ≠ .prn r) ∨ u.outPending = false
  flags : u.flags = s.flags ∨
    ∃ rA rB : RegIx, i = .cmp (regByte rA) (regByte rB) ∧ u.flags = compareFlags (s.reg rA) (s.reg rB)
  trace : u.trace = s.trace ∨
    ∃ r : RegIx, i = .prn (regByte r) ∧ s.pins.outReady = true ∧ u.trace = s.trace ++ [s.reg r] ∧ u.outPending = false
  mem : u.mem = s.mem ∨
    (∃ r : RegIx, i = .push (regByte r) ∨ i = .call (regByte r)) ∧ s.pushAddr.toNat < s.memSize ∧
      ∃ v, u.mem = s.mem.write s.pushAddr.toNat v
  pc : u.pc = s.pc + BitVec.ofNat 9 i.op.length ∨ ∃ b : Byte, u.pc = zext9 b

/-- The kinds of fault an instruction raises once it is fetched (60_exceptions.md R81). -/
def AccessKind.late : AccessKind → Bool
  | .fetch => false
  | .operand => false
  | .register => true
  | .stack => true
  | .retaddr => true

/-- Everything `exec` can answer: a fault entered, a PRN held, or a retired effect. -/
inductive ExecOutcome (i : Instr) (s : State) : Result → Prop where
  | raised (k : AccessKind) (info : Word9) (hk : k.late = true) :
      ExecOutcome i s (.next (s.raise (.outOfBoundsAccess k info) (opcodeOf i.op)))
  | held (r : RegIx) (hi : i = .prn (regByte r)) (h : s.pins.outReady = false) : ExecOutcome i s (.next s.hold)
  | retired (u : State) (h : Effect i s u) : ExecOutcome i s (.next u.retire)

theorem exec_outcome (i : Instr) (s : State) : ExecOutcome i s (exec i s) := by
  have reg1 (f : Byte → Instr) (h : Byte → State → Except FaultCause State)
      (he : ∀ r, exec (f r) s = complete (f r).op s (h r s))
      (hbad : ∀ r, 8 ≤ r.toNat → h r s = .error (.outOfBoundsAccess .register (zext9 r)))
      (hok : ∀ k : RegIx, ExecOutcome (f (regByte k)) s (exec (f (regByte k)) s)) (r : Byte) :
      ExecOutcome (f r) s (exec (f r) s) := by
    rcases regIndex_cases r with ⟨k, rfl⟩ | ⟨hr, -⟩
    · exact hok k
    · rw [he, hbad r hr]; exact .raised .register _ rfl
  have alu2 (f : Byte → Byte → Instr) (sel : BitVec 2)
      (he : ∀ rA rB, exec (f rA rB) s = complete (f rA rB).op s (aluHandler sel rA rB s))
      (hok : ∀ a b : RegIx, ExecOutcome (f (regByte a) (regByte b)) s (exec (f (regByte a) (regByte b)) s))
      (rA rB : Byte) : ExecOutcome (f rA rB) s (exec (f rA rB) s) := by
    rcases regIndex_cases rA with ⟨a, rfl⟩ | ⟨hA, -⟩
    · rcases regIndex_cases rB with ⟨b, rfl⟩ | ⟨hB, -⟩
      · exact hok a b
      · rw [he, aluHandler_badB sel a rB s hB]; exact .raised .register _ rfl
    · rw [he, aluHandler_badA sel rA rB s hA]; exact .raised .register _ rfl
  cases i with
  | hlt => exact .retired _ ⟨rfl, rfl, rfl, rfl, rfl, rfl, rfl, .inl ⟨rfl, nofun⟩, .inl rfl, .inl rfl, .inl rfl, .inl rfl⟩
  | ldi r imm =>
    refine reg1 (fun r => .ldi r imm) (fun r => ldiHandler r imm) (fun _ => rfl)
      (fun r h => ldiHandler_bad r imm s h) (fun k => ?_) r
    rw [exec_ldi]
    exact .retired _ ⟨rfl, rfl, rfl, rfl, rfl, rfl, rfl, .inl ⟨rfl, nofun⟩, .inl rfl, .inl rfl, .inl rfl, .inl rfl⟩
  | prn r =>
    rcases regIndex_cases r with ⟨k, rfl⟩ | ⟨hr, -⟩
    · cases h : s.pins.outReady with
      | false => rw [exec_prn_held k s h]; exact .held k rfl h
      | true =>
        rw [exec_prn_accepted k s h]
        exact .retired _ ⟨rfl, rfl, rfl, rfl, rfl, rfl, rfl, .inr rfl, .inl rfl, .inr ⟨k, rfl, h, rfl, rfl⟩, .inl rfl,
          .inl rfl⟩
    · simp only [exec, execPrn, prnHandler_bad r s hr]; exact .raised .register _ rfl
  | mul rA rB =>
    refine alu2 .mul _ (fun _ _ => rfl) (fun a b => ?_) rA rB
    rw [exec_mul]
    exact .retired _ ⟨rfl, rfl, rfl, rfl, rfl, rfl, rfl, .inl ⟨rfl, nofun⟩, .inl rfl, .inl rfl, .inl rfl, .inl rfl⟩
  | add rA rB =>
    refine alu2 .add _ (fun _ _ => rfl) (fun a b => ?_) rA rB
    rw [exec_add]
    exact .retired _ ⟨rfl, rfl, rfl, rfl, rfl, rfl, rfl, .inl ⟨rfl, nofun⟩, .inl rfl, .inl rfl, .inl rfl, .inl rfl⟩
  | cmp rA rB =>
    refine alu2 .cmp _ (fun _ _ => rfl) (fun a b => ?_) rA rB
    rw [exec_cmp]
    exact .retired _ ⟨rfl, rfl, rfl, rfl, rfl, rfl, rfl, .inl ⟨rfl, nofun⟩, .inr ⟨a, b, rfl, rfl⟩, .inl rfl, .inl rfl, .inl rfl⟩
  | push r =>
    refine reg1 .push _ (fun _ => rfl) (fun r h => pushHandler_bad r s h) (fun k => ?_) r
    by_cases h : s.pushAddr.toNat < s.memSize
    · rw [exec_push k s h]
      exact .retired _ ⟨rfl, rfl, rfl, rfl, rfl, rfl, rfl, .inl ⟨rfl, nofun⟩, .inl rfl, .inl rfl,
        .inr ⟨⟨k, .inl rfl⟩, h, _, rfl⟩, .inl rfl⟩
    · rw [exec_push_stack k s (by omega)]; exact .raised .stack _ rfl
  | pop r =>
    refine reg1 .pop _ (fun _ => rfl) (fun r h => popHandler_bad r s h) (fun k => ?_) r
    by_cases h : (s.reg 7).toNat < s.memSize
    · rw [exec_pop k s h]
      exact .retired _ ⟨rfl, rfl, rfl, rfl, rfl, rfl, rfl, .inl ⟨rfl, nofun⟩, .inl rfl, .inl rfl, .inl rfl, .inl rfl⟩
    · rw [exec_pop_stack k s (by omega)]; exact .raised .stack _ rfl
  | call r =>
    refine reg1 .call _ (fun _ => rfl) (fun r h => callHandler_bad r s h) (fun k => ?_) r
    by_cases hr : 255 < s.pc.toNat + 2
    · rw [exec_call_retaddr k s hr]; exact .raised .retaddr _ rfl
    by_cases h : s.pushAddr.toNat < s.memSize
    · rw [exec_call k s (by omega) h]
      exact .retired _ ⟨rfl, rfl, rfl, rfl, rfl, rfl, rfl, .inl ⟨rfl, nofun⟩, .inl rfl, .inl rfl,
        .inr ⟨⟨k, .inr rfl⟩, h, _, rfl⟩, .inr ⟨_, rfl⟩⟩
    · rw [exec_call_stack k s (by omega) (by omega)]; exact .raised .stack _ rfl
  | ret =>
    by_cases h : (s.reg 7).toNat < s.memSize
    · rw [exec_ret s h]
      exact .retired _ ⟨rfl, rfl, rfl, rfl, rfl, rfl, rfl, .inl ⟨rfl, nofun⟩, .inl rfl, .inl rfl, .inl rfl, .inr ⟨_, rfl⟩⟩
    · rw [exec_ret_stack s (by omega)]; exact .raised .stack _ rfl
  | jeq r =>
    refine reg1 .jeq _ (fun _ => rfl) (fun r h => jumpHandler_bad _ r s h) (fun k => ?_) r
    rw [exec_jeq]
    refine .retired _ ⟨rfl, rfl, rfl, rfl, rfl, rfl, rfl, .inl ⟨rfl, nofun⟩, .inl rfl, .inl rfl, .inl rfl, ?_⟩
    cases s.flags.e
    · exact .inl rfl
    · exact .inr ⟨_, rfl⟩
  | jne r =>
    refine reg1 .jne _ (fun _ => rfl) (fun r h => jumpHandler_bad _ r s h) (fun k => ?_) r
    rw [exec_jne]
    refine .retired _ ⟨rfl, rfl, rfl, rfl, rfl, rfl, rfl, .inl ⟨rfl, nofun⟩, .inl rfl, .inl rfl, .inl rfl, ?_⟩
    cases s.flags.e
    · exact .inr ⟨_, rfl⟩
    · exact .inl rfl
  | jmp r =>
    refine reg1 .jmp _ (fun _ => rfl) (fun r h => jumpHandler_bad _ r s h) (fun k => ?_) r
    rw [exec_jmp]
    exact .retired _ ⟨rfl, rfl, rfl, rfl, rfl, rfl, rfl, .inl ⟨rfl, nofun⟩, .inl rfl, .inl rfl, .inl rfl, .inr ⟨_, rfl⟩⟩

end Sys2Proof.Machine
end

