-- ==== Sys2Proof/Laws/PerInstr.lean ====
section
/-! SUPPORT. A statement about every instruction as syntax, one lemma per constructor: an encoding is the opcode byte
and then as many operand bytes as the format has (30_encoding.md R39, R46), among them the register operands. -/

namespace Sys2Proof.Laws.EncodingShape

/-- The encoding starts with the opcode's byte, its length is the opcode's, and every register operand is one of its
operand bytes. -/
def Statement (i : Instr) : Prop :=
  (encode i).head? = some (opcodeOf i.op) ∧ (encode i).length = i.op.length ∧
    ∀ b ∈ i.regOperands, b ∈ (encode i).tail

theorem hlt : Statement .hlt :=
  ⟨rfl, rfl, by simp [encode, Instr.regOperands, Instr.operandBytes]⟩
theorem ldi (r imm : Byte) : Statement (.ldi r imm) :=
  ⟨rfl, rfl, by simp [encode, Instr.regOperands, Instr.operandBytes]⟩
theorem prn (r : Byte) : Statement (.prn r) :=
  ⟨rfl, rfl, by simp [encode, Instr.regOperands, Instr.operandBytes]⟩
theorem mul (rA rB : Byte) : Statement (.mul rA rB) :=
  ⟨rfl, rfl, by simp [encode, Instr.regOperands, Instr.operandBytes]⟩
theorem add (rA rB : Byte) : Statement (.add rA rB) :=
  ⟨rfl, rfl, by simp [encode, Instr.regOperands, Instr.operandBytes]⟩
theorem push (r : Byte) : Statement (.push r) :=
  ⟨rfl, rfl, by simp [encode, Instr.regOperands, Instr.operandBytes]⟩
theorem pop (r : Byte) : Statement (.pop r) :=
  ⟨rfl, rfl, by simp [encode, Instr.regOperands, Instr.operandBytes]⟩
theorem call (r : Byte) : Statement (.call r) :=
  ⟨rfl, rfl, by simp [encode, Instr.regOperands, Instr.operandBytes]⟩
theorem ret : Statement .ret :=
  ⟨rfl, rfl, by simp [encode, Instr.regOperands, Instr.operandBytes]⟩
theorem cmp (rA rB : Byte) : Statement (.cmp rA rB) :=
  ⟨rfl, rfl, by simp [encode, Instr.regOperands, Instr.operandBytes]⟩
theorem jeq (r : Byte) : Statement (.jeq r) :=
  ⟨rfl, rfl, by simp [encode, Instr.regOperands, Instr.operandBytes]⟩
theorem jne (r : Byte) : Statement (.jne r) :=
  ⟨rfl, rfl, by simp [encode, Instr.regOperands, Instr.operandBytes]⟩
theorem jmp (r : Byte) : Statement (.jmp r) :=
  ⟨rfl, rfl, by simp [encode, Instr.regOperands, Instr.operandBytes]⟩

end Sys2Proof.Laws.EncodingShape
end

