-- ==== Sys2Proof/Laws/Step.lean ====
section
/-! SUPPORT. What fetching reads, what an edge does before the cycle, and everything one step can answer, said once
(`step_outcome`). -/

namespace Sys2Proof.Machine

/-! ### what fetch and the step limit read -/

/-- Fetch reads the pc, memory and the model arguments only. -/
theorem State.fetch_congr (s t : State) (hp : t.pc = s.pc) (hm : t.mem = s.mem) (hq : t.params = s.params) :
    t.fetch = s.fetch := by
  have hr (k : AccessKind) (a : Nat) : t.memRead k a = s.memRead k a := by
    unfold State.memRead State.memSize; rw [hm, hq]
  unfold State.fetch
  rw [hr, hr, hr, hp]

/-- The step limit reads `icount` and the model arguments only. -/
theorem State.limitReached_congr (s t : State) (hi : t.icount = s.icount) (hq : t.params = s.params) :
    t.limitReached = s.limitReached := by
  simp [State.limitReached, hi, hq]

/-! ### sampling -/

@[simp] theorem State.sample_regs (s : State) : s.sample.regs = s.regs := by unfold State.sample; split <;> rfl
@[simp] theorem State.sample_pc (s : State) : s.sample.pc = s.pc := by unfold State.sample; split <;> rfl
@[simp] theorem State.sample_flags (s : State) : s.sample.flags = s.flags := by unfold State.sample; split <;> rfl
@[simp] theorem State.sample_mem (s : State) : s.sample.mem = s.mem := by unfold State.sample; split <;> rfl
@[simp] theorem State.sample_runState (s : State) : s.sample.runState = s.runState := by
  unfold State.sample; split <;> rfl
@[simp] theorem State.sample_fault (s : State) : s.sample.fault = s.fault := by unfold State.sample; split <;> rfl
@[simp] theorem State.sample_icount (s : State) : s.sample.icount = s.icount := by unfold State.sample; split <;> rfl
@[simp] theorem State.sample_outPending (s : State) : s.sample.outPending = s.outPending := by
  unfold State.sample; split <;> rfl
@[simp] theorem State.sample_trace (s : State) : s.sample.trace = s.trace := by unfold State.sample; split <;> rfl
@[simp] theorem State.sample_ldErr (s : State) : s.sample.ldErr = s.ldErr := by unfold State.sample; split <;> rfl
@[simp] theorem State.sample_params (s : State) : s.sample.params = s.params := by unfold State.sample; split <;> rfl

/-- With no more levels listed, the host's levels stay as they are (log 4). -/
theorem State.sample_nil (s : State) (h : s.inputs = []) : s.sample = s := by unfold State.sample; rw [h]

theorem State.sample_cons (s : State) (p : Pins) (rest : List Pins) (h : s.inputs = p :: rest) :
    s.sample = { s with pins := p, inputs := rest } := by unfold State.sample; rw [h]

/-! ### the load port -/

/-- Outside IDLE the load port can only set `ld_err` (70_reset_and_hazards.md R99). -/
theorem State.loadPort_not_idle (s : State) (h : s.runState ≠ .idle) :
    s.loadPort = { s with ldErr := s.ldErr || s.pins.ldWe } := by
  cases hw : s.pins.ldWe <;> simp [State.loadPort, hw, h]

@[simp] theorem State.loadPort_runState (s : State) : s.loadPort.runState = s.runState := by
  unfold State.loadPort; split <;> [split; skip] <;> rfl
@[simp] theorem State.loadPort_pins (s : State) : s.loadPort.pins = s.pins := by
  unfold State.loadPort; split <;> [split; skip] <;> rfl
@[simp] theorem State.loadPort_inputs (s : State) : s.loadPort.inputs = s.inputs := by
  unfold State.loadPort; split <;> [split; skip] <;> rfl

/-- A state ready to run outside IDLE: sampled, with `ld_err` set by a dropped load. -/
theorem State.ready_not_idle (s : State) (h : s.runState ≠ .idle) :
    s.ready = { s.sample with ldErr := s.ldErr || s.sample.pins.ldWe } := by
  unfold State.ready
  rw [State.loadPort_not_idle _ (by simpa using h)]
  simp

/-- What being ready leaves alone outside IDLE. -/
theorem State.ready_fields (s : State) (h : s.runState ≠ .idle) :
    s.ready.regs = s.regs ∧ s.ready.pc = s.pc ∧ s.ready.flags = s.flags ∧ s.ready.mem = s.mem ∧
    s.ready.runState = s.runState ∧ s.ready.fault = s.fault ∧ s.ready.icount = s.icount ∧
    s.ready.outPending = s.outPending ∧ s.ready.trace = s.trace ∧ s.ready.params = s.params := by
  rw [State.ready_not_idle s h]; simp

theorem State.ready_pins (s : State) : s.ready.pins = s.sample.pins := by simp [State.ready]

theorem State.ready_fetch (s : State) (h : s.runState ≠ .idle) : s.ready.fetch = s.fetch :=
  State.fetch_congr _ _ (s.ready_fields h).2.1 (s.ready_fields h).2.2.2.1 (s.ready_fields h).2.2.2.2.2.2.2.2.2

theorem State.ready_limitReached (s : State) (h : s.runState ≠ .idle) : s.ready.limitReached = s.limitReached :=
  State.limitReached_congr _ _ (s.ready_fields h).2.2.2.2.2.2.1 (s.ready_fields h).2.2.2.2.2.2.2.2.2

/-! ### the step, run state by run state -/

theorem step_reset (s : State) (h : s.sample.pins.rst = true) : step s = .next s.sample.resetEdge := by
  simp [step, State.edge, h]

theorem step_idle (s : State) (h : s.sample.pins.rst = false) (hr : s.runState = .idle) :
    step s = .next s.ready.startEdge := by
  simp [step, State.edge, h, State.advance, State.ready, hr]

theorem step_running (s : State) (h : s.sample.pins.rst = false) (hr : s.runState = .running) :
    step s = s.ready.cycle := by
  simp [step, State.edge, h, State.advance, State.ready, hr]

/-- In a terminal state an edge without reset changes nothing but `ld_err` (40_engine.md R49). -/
theorem step_terminal (s : State) (h : s.sample.pins.rst = false) (hi : s.runState ≠ .idle)
    (hr : s.runState ≠ .running) : step s = .next s.ready := by
  have hs : s.ready.runState = s.runState := (s.ready_fields hi).2.2.2.2.1
  unfold State.ready at hs ⊢
  simp only [step, State.edge, h, State.advance, hs]
  cases hq : s.runState <;> simp_all

theorem step_limit (s : State) (h : s.sample.pins.rst = false) (hr : s.runState = .running)
    (hl : s.limitReached = true) : step s = .next (s.ready.setRun .stopped) := by
  rw [step_running s h hr, State.cycle, s.ready_limitReached (by simp [hr]), if_pos hl]

theorem step_fetch_error (s : State) (h : s.sample.pins.rst = false) (hr : s.runState = .running)
    (hl : s.limitReached = false) (c : FaultCause) (op : Byte) (hf : s.fetch = .error (c, op)) :
    step s = .next (s.ready.raise c op) := by
  rw [step_running s h hr, State.cycle, s.ready_limitReached (by simp [hr]), hl,
    s.ready_fetch (by simp [hr]), hf]
  rfl

theorem step_exec (s : State) (h : s.sample.pins.rst = false) (hr : s.runState = .running)
    (hl : s.limitReached = false) (i : Instr) (hf : s.fetch = .ok i) : step s = exec i s.ready := by
  rw [step_running s h hr, State.cycle, s.ready_limitReached (by simp [hr]), hl,
    s.ready_fetch (by simp [hr]), hf]
  rfl

/-- The faults that end a fetch (40_engine.md R52 to R54), with the opcode byte their record holds. -/
theorem State.fetch_error (s : State) (c : FaultCause) (op : Byte) (h : s.fetch = .error (c, op)) :
    (c = .outOfBoundsAccess .fetch (BitVec.ofNat 9 s.pc.toNat) ∧ op = 0#8 ∧ s.memSize ≤ s.pc.toNat) ∨
    (s.pc.toNat < s.memSize ∧ op = s.mem.read s.pc.toNat ∧
      (c = .illegalInstruction ∨ ∃ a, c = .outOfBoundsAccess .operand a)) := by
  unfold State.fetch at h
  by_cases hp : s.pc.toNat < s.memSize
  · rw [State.memRead_ok _ _ _ hp] at h
    refine .inr ⟨hp, ?_⟩
    simp only at h
    split at h
    · cases h; exact ⟨rfl, .inl rfl⟩
    · split at h
      · cases h
      · unfold State.memRead at h; split at h
        · next heq => split at heq <;> cases heq; cases h; exact ⟨rfl, .inr ⟨_, rfl⟩⟩
        · cases h
      · unfold State.memRead at h; split at h
        · next heq => split at heq <;> cases heq; cases h; exact ⟨rfl, .inr ⟨_, rfl⟩⟩
        · split at h
          · next heq => split at heq <;> cases heq; cases h; exact ⟨rfl, .inr ⟨_, rfl⟩⟩
          · cases h
  · rw [State.memRead_error _ _ _ (by omega)] at h
    cases h
    exact .inl ⟨rfl, rfl, by omega⟩

/-- A fetched instruction starts inside memory. -/
theorem State.fetch_ok_pc (s : State) (i : Instr) (h : s.fetch = .ok i) : s.pc.toNat < s.memSize := by
  by_contra hp
  rw [State.fetch, State.memRead_error _ _ _ (by omega)] at h
  cases h

/-- The byte at `pc` is the fetched instruction's opcode. -/
theorem State.fetch_ok_opcode (s : State) (i : Instr) (h : s.fetch = .ok i) :
    opcodeOf i.op = s.mem.read s.pc.toNat := by
  have hp := s.fetch_ok_pc i h
  unfold State.fetch at h
  rw [State.memRead_ok _ _ _ hp] at h
  simp only at h
  cases ho : opOfByte (s.mem.read s.pc.toNat) with
  | none => simp [ho] at h
  | some o =>
    rw [opcodeOf_of_opOfByte _ _ ho]
    simp only [ho] at h
    congr 1
    cases o <;> simp only [Op.form] at h <;> (repeat' split at h) <;> cases h <;> rfl

/-- Where the whole instruction lies in memory, fetch finds it, and its encoding is the bytes from `pc`. -/
theorem State.fetch_of_inside (s : State) (o : Op) (ho : opOfByte (s.mem.read s.pc.toNat) = some o)
    (h : s.pc.toNat + o.operandCount < s.memSize) :
    ∃ i, s.fetch = .ok i ∧ i.op = o ∧
      ∀ k, k ≤ o.operandCount → (encode i)[k]? = some (s.mem.read (s.pc.toNat + k)) := by
  have hb := (opcodeOf_of_opOfByte _ _ ho).symm
  unfold State.fetch
  rw [State.memRead_ok _ _ _ (by omega)]
  simp only [ho]
  cases o
  case hlt | ret =>
    refine ⟨_, rfl, rfl, fun k hk => ?_⟩
    obtain rfl : k = 0 := Nat.le_zero.mp hk
    exact congrArg some hb
  case ldi | mul | add | cmp =>
    change s.pc.toNat + 2 < s.memSize at h
    simp only [Op.form, State.memRead_ok _ .operand _ h,
      State.memRead_ok _ .operand _ (show s.pc.toNat + 1 < s.memSize by omega)]
    refine ⟨_, rfl, rfl, fun k hk => ?_⟩
    match k, hk with
    | 0, _ => exact congrArg some hb
    | 1, _ => rfl
    | 2, _ => rfl
  all_goals
    change s.pc.toNat + 1 < s.memSize at h
    simp only [Op.form, State.memRead_ok _ .operand _ h]
    refine ⟨_, rfl, rfl, fun k hk => ?_⟩
    match k, hk with
    | 0, _ => exact congrArg some hb
    | 1, _ => rfl

/-- Where an operand byte of the instruction at `pc` is past memory, fetch raises OPERAND (40_engine.md R54). -/
theorem State.fetch_of_outside (s : State) (o : Op) (h0 : s.pc.toNat < s.memSize)
    (ho : opOfByte (s.mem.read s.pc.toNat) = some o) (h : s.memSize ≤ s.pc.toNat + o.operandCount) :
    ∃ a, s.fetch = .error (.outOfBoundsAccess .operand a, s.mem.read s.pc.toNat) := by
  have hn := form_operandCount o
  unfold State.fetch
  rw [State.memRead_ok _ _ _ h0]
  simp only [ho]
  cases hf : o.form <;> simp only [hf] at hn <;> rw [hn] at h
  · omega
  · simp only [State.memRead_error _ .operand _ h]
    exact ⟨_, rfl⟩
  · by_cases h1 : s.pc.toNat + 1 < s.memSize
    · simp only [State.memRead_ok _ .operand _ h1, State.memRead_error _ .operand _ h]
      exact ⟨_, rfl⟩
    · simp only [State.memRead_error _ .operand _ (Nat.le_of_not_lt h1)]
      exact ⟨_, rfl⟩

/-- Fetch finds the instruction that the bytes at `pc` decode to (40_engine.md R50, 30_encoding.md R46). -/
theorem State.fetch_of_decode (s : State) (i : Instr) (rest : List Byte) (h : decode (s.window s.pc.toNat) = .ok (i, rest)) :
    s.fetch = .ok i := by
  unfold State.window at h
  have hm := s.memSize_cases
  by_cases h0 : s.pc.toNat < s.memSize
  · by_cases h1 : s.pc.toNat + 1 < s.memSize
    · by_cases h2 : s.pc.toNat + 2 < s.memSize
      · simp [h0, h1, h2, decode] at h
        simp only [State.fetch, State.memRead_ok _ _ _ h0, State.memRead_ok _ _ _ h1, State.memRead_ok _ _ _ h2]
        cases ho : opOfByte (s.mem.read s.pc.toNat) with
        | none => simp [ho] at h
        | some o => cases hf : o.form <;> simp_all
      · simp [h0, h1, h2, decode] at h
        simp only [State.fetch, State.memRead_ok _ _ _ h0, State.memRead_ok _ _ _ h1]
        cases ho : opOfByte (s.mem.read s.pc.toNat) with
        | none => simp [ho] at h
        | some o => cases hf : o.form <;> simp_all
    · have h2 : ¬ s.pc.toNat + 2 < s.memSize := by omega
      simp [h0, h1, h2, decode] at h
      simp only [State.fetch, State.memRead_ok _ _ _ h0]
      cases ho : opOfByte (s.mem.read s.pc.toNat) with
      | none => simp [ho] at h
      | some o => cases hf : o.form <;> simp_all
  · have h1 : ¬ s.pc.toNat + 1 < s.memSize := by omega
    have h2 : ¬ s.pc.toNat + 2 < s.memSize := by omega
    simp [h0, h1, h2, decode] at h

/-- Everything one step can answer. -/
inductive StepOutcome (s : State) : Result → Prop where
  | reset (h : s.sample.pins.rst = true) : StepOutcome s (.next s.sample.resetEdge)
  | idle (h : s.sample.pins.rst = false) (hr : s.runState = .idle) : StepOutcome s (.next s.ready.startEdge)
  | terminal (h : s.sample.pins.rst = false) (hi : s.runState ≠ .idle) (hr : s.runState ≠ .running) :
      StepOutcome s (.next s.ready)
  | stopped (h : s.sample.pins.rst = false) (hr : s.runState = .running) (hl : s.limitReached = true) :
      StepOutcome s (.next (s.ready.setRun .stopped))
  | fetchFault (h : s.sample.pins.rst = false) (hr : s.runState = .running) (hl : s.limitReached = false)
      (c : FaultCause) (op : Byte) (hf : s.fetch = .error (c, op)) : StepOutcome s (.next (s.ready.raise c op))
  | ran (h : s.sample.pins.rst = false) (hr : s.runState = .running) (hl : s.limitReached = false) (i : Instr)
      (hf : s.fetch = .ok i) (r : Result) (ho : ExecOutcome i s.ready r) : StepOutcome s r

theorem step_outcome (s : State) : StepOutcome s (step s) := by
  cases h : s.sample.pins.rst with
  | true => rw [step_reset s h]; exact .reset h
  | false =>
    by_cases hi : s.runState = .idle
    · rw [step_idle s h hi]; exact .idle h hi
    by_cases hr : s.runState = .running
    · cases hl : s.limitReached with
      | true => rw [step_limit s h hr hl]; exact .stopped h hr hl
      | false =>
        cases hf : s.fetch with
        | error e => rw [step_fetch_error s h hr hl e.1 e.2 hf]; exact .fetchFault h hr hl _ _ hf
        | ok i => rw [step_exec s h hr hl i hf]; exact .ran h hr hl i hf _ (exec_outcome i s.ready)
    · rw [step_terminal s h hi hr]; exact .terminal h hi hr

/-- Everything a RUNNING step without reset can lead to. -/
theorem step_running_cases {s t : State} (hr : s.runState = .running) (h : s.sample.pins.rst = false)
    (ht : step s = .next t) :
    (s.limitReached = true ∧ t = s.ready.setRun .stopped) ∨
    (s.limitReached = false ∧ ∃ c op, s.fetch = .error (c, op) ∧ t = s.ready.raise c op) ∨
    (s.limitReached = false ∧ ∃ i, s.fetch = .ok i ∧
      ((∃ k info, k.late = true ∧ t = s.ready.raise (.outOfBoundsAccess k info) (opcodeOf i.op)) ∨
       (∃ r : RegIx, i = .prn (regByte r) ∧ s.sample.pins.outReady = false ∧ t = s.ready.hold) ∨
       (∃ u, Effect i s.ready u ∧ t = u.retire))) := by
  have ho := step_outcome s
  rw [ht] at ho
  cases ho with
  | reset h' => simp [h] at h'
  | idle _ h' => simp [hr] at h'
  | terminal _ _ h' => simp [hr] at h'
  | stopped _ _ hl => exact .inl ⟨hl, rfl⟩
  | fetchFault _ _ hl c op hf => exact .inr (.inl ⟨hl, c, op, hf, rfl⟩)
  | ran _ _ hl i hf r ho =>
    cases ho with
    | raised k info hk => exact .inr (.inr ⟨hl, i, hf, .inl ⟨k, info, hk, rfl⟩⟩)
    | held r hi hh => exact .inr (.inr ⟨hl, i, hf, .inr (.inl ⟨r, hi, by rw [← State.ready_pins]; exact hh, rfl⟩)⟩)
    | retired u hu => exact .inr (.inr ⟨hl, i, hf, .inr (.inr ⟨u, hu, rfl⟩)⟩)

end Sys2Proof.Machine
end

