-- ==== Sys2Proof/Tests/Slice0.lean ====
section
/-! SUPPORT. The model's own tests, expected results from spec/95_test_vectors.md (V and P numbers) and 30_encoding.md,
and for every statement with hypotheses a witness that meets them all. -/

namespace Sys2Proof.Tests

open Sys2Proof Sys2Proof.Machine

/-! ## Helpers -/

/-- A RUNNING state after reset with a program counter, register values by index and cells. -/
def at' (pc : Nat) (regs : List (RegIx × Nat)) (cells : List (Nat × Nat)) : State :=
  let s := regs.foldl (fun s r => s.setReg r.1 (u8 r.2)) { State.reset with runState := .running }
  { s with pc := BitVec.ofNat 9 pc, mem := cells.foldl (fun m c => m.write c.1 (u8 c.2)) [] }

/-- The same with 255 bytes of memory. -/
def small (s : State) : State := { s with params := { s.params with memSize := .bytes255 } }

/-- The same with a step limit. -/
def limited (n : Nat) (s : State) : State := { s with params := { s.params with stepLimit := some n } }

/-- The same with flags. -/
def flagged (l g e : Bool) (s : State) : State := { s with flags := { l := l, g := g, e := e } }

/-- The same with a host that does not accept. -/
def deaf (s : State) : State := { s with pins := { s.pins with outReady := false } }

/-- What a step leaves, seen through `f`. -/
def after {α : Type} (s : State) (f : State → α) : Option α := (nextState? (step s)).map f

/-- The run state and the fault record's fields as numbers: FAULTED(code, kind, fault_pc, fault_opcode, fault_info). -/
def fault? (s : State) : Option (List Nat) :=
  if s.runState = .faulted then
    some [s.fault.code.toNat, s.fault.kind.toNat, s.fault.pc.toNat, s.fault.opcode.toNat, s.fault.info.toNat]
  else none

/-! ## Well-formedness: the one check -/

theorem test_wellFormed_accepts : (Instr.ldi 7#8 255#8).wellFormed = true := by decide
theorem test_wellFormed_refuses_index_8 : (Instr.ldi 8#8 1#8).wellFormed = false := by decide
theorem test_wellFormed_refuses_second_operand : (Instr.cmp 0#8 8#8).wellFormed = false := by decide

/-! ## Decoding, bytes written out from 30_encoding.md R42 -/

theorem test_decode_hlt : decode [0b00000001#8] = .ok (.hlt, []) := by rfl
theorem test_decode_ldi : decode [0b10000010#8, 3#8, 255#8] = .ok (.ldi 3#8 255#8, []) := by rfl
theorem test_decode_prn : decode [0b01000111#8, 4#8, 9#8] = .ok (.prn 4#8, [9#8]) := by rfl
theorem test_decode_mul : decode [0b10100010#8, 5#8, 6#8] = .ok (.mul 5#8 6#8, []) := by rfl
theorem test_decode_add : decode [0b10100000#8, 7#8, 1#8] = .ok (.add 7#8 1#8, []) := by rfl
theorem test_decode_push : decode [0b01000101#8, 2#8] = .ok (.push 2#8, []) := by rfl
theorem test_decode_pop : decode [0b01000110#8, 1#8] = .ok (.pop 1#8, []) := by rfl
theorem test_decode_call : decode [0b01010000#8, 3#8] = .ok (.call 3#8, []) := by rfl
theorem test_decode_ret : decode [0b00010001#8] = .ok (.ret, []) := by rfl
theorem test_decode_cmp : decode [0b10100111#8, 0#8, 8#8] = .ok (.cmp 0#8 8#8, []) := by rfl
theorem test_decode_jeq : decode [0b01010101#8, 3#8] = .ok (.jeq 3#8, []) := by rfl
theorem test_decode_jne : decode [0b01010110#8, 3#8] = .ok (.jne 3#8, []) := by rfl
theorem test_decode_jmp : decode [0b01010100#8, 2#8] = .ok (.jmp 2#8, []) := by rfl
/-- V2: decoding is by whole byte; 0x00, the reset value of a cell, is illegal (R45). -/
theorem test_decode_illegal : decode [0x42#8, 0#8] = .error (.illegalOpcode 0x42#8) := by rfl
theorem test_decode_zero_is_illegal : decode [0x00#8] = .error (.illegalOpcode 0x00#8) := by rfl
theorem test_decode_missing_operand : decode [0x82#8, 0#8] = .error (.missingOperand 0x82#8 2) := by rfl
theorem test_tableWord : decodeTableWord 24 0x080082 = some (.ldi 0#8 8#8) := by decide
theorem test_tableWord_short : decodeTableWord 8 0xA0 = some (.add 0#8 0#8) := by decide
/-- The source's own listing, 30_encoding.md R47. -/
theorem test_assembly : (Instr.ldi 0#8 8#8).assembly = { mnemonic := "LDI", operands := [.reg 0#8, .imm 8#8] } := by
  rfl

/-! ## Instructions, at most two vectors each -/

/-- V26, V27. -/
theorem test_hlt : after (at' 11 [] [(11, 1)]) (fun t => (t.runState, t.pc.toNat, t.icount.toNat)) =
    some (.halted, 12, 1) := by decide
theorem test_hlt_at_the_last_byte : after (at' 255 [] [(255, 1)]) (fun t => (t.runState, t.pc.toNat)) =
    some (.halted, 256) := by decide
/-- V28, V29. -/
theorem test_ldi : after (at' 0 [] [(0, 0x82), (1, 3), (2, 255)]) (fun t => (t.reg 3, t.pc.toNat)) =
    some (255#8, 3) := by decide
theorem test_ldi_sp : after (at' 0 [] [(0, 0x82), (1, 7), (2, 0x40)]) State.sp = some 0x40#8 := by decide
/-- V30, V32. -/
theorem test_prn : after (at' 0 [(0, 72)] [(0, 0x47)]) (fun t => (t.trace, t.pc.toNat)) = some ([72#8], 2) := by decide
theorem test_prn_held : after (deaf (at' 0 [(0, 72)] [(0, 0x47)]))
    (fun t => (t.outPending, t.outData, t.pc.toNat, t.icount.toNat)) = some (true, some 72#8, 0, 0) := by decide
/-- V15, V16. -/
theorem test_mul_wraps_to_0 : after (at' 0 [(0, 16), (1, 16)] [(0, 0xA2), (2, 1)]) (State.reg · 0) =
    some 0#8 := by decide
theorem test_mul_wraps_to_4 : after (at' 0 [(0, 20), (1, 13)] [(0, 0xA2), (2, 1)]) (State.reg · 0) =
    some 4#8 := by decide
/-- V10 with V13's flags, V12. -/
theorem test_add : after (flagged false true false (at' 0 [(0, 200), (1, 100)] [(0, 0xA0), (2, 1)]))
    (fun t => (t.reg 0, t.reg 1, t.flags.g)) = some (44#8, 100#8, true) := by decide
theorem test_add_to_itself : after (at' 0 [(0, 130)] [(0, 0xA0)]) (State.reg · 0) = some 4#8 := by decide
/-- V24, V23. -/
theorem test_cmp_unsigned : after (at' 0 [(1, 255)] [(0, 0xA7), (2, 1)]) State.flags =
    some { l := true, g := false, e := false } := by decide
theorem test_cmp_overwrites : after (flagged true false false (at' 0 [(0, 99)] [(0, 0xA7)])) State.flags =
    some { l := false, g := false, e := true } := by decide
/-- V33, V34. -/
theorem test_push_wraps : after (at' 0 [(0, 1)] [(0, 0x45)]) (fun t => (t.sp, t.mem.read 255, t.pc.toNat)) =
    some (255#8, 1#8, 2) := by decide
theorem test_push_sp : after (at' 0 [(7, 0x10)] [(0, 0x45), (1, 7)]) (fun t => (t.sp, t.mem.read 0x0F)) =
    some (0x0F#8, 0x0F#8) := by decide
/-- V35, V37. -/
theorem test_pop : after (at' 0 [(7, 255)] [(0, 0x46), (1, 1), (255, 1)])
    (fun t => (t.reg 1, t.sp, t.mem.read 255)) = some (1#8, 0#8, 1#8) := by decide
theorem test_pop_sp : after (at' 0 [(7, 0x20)] [(0, 0x46), (1, 7), (0x20, 0x80)]) State.sp =
    some 0x81#8 := by decide
/-- V40, V43. -/
theorem test_call : after (at' 6 [(1, 11)] [(6, 0x50), (7, 1)]) (fun t => (t.sp, t.mem.read 255, t.pc.toNat)) =
    some (255#8, 8#8, 11) := by decide
theorem test_call_sp : after (at' 4 [(7, 0x40)] [(4, 0x50), (5, 7)])
    (fun t => (t.sp, t.mem.read 0x3F, t.pc.toNat)) = some (0x3F#8, 6#8, 0x3F) := by decide
/-- V44, V45. -/
theorem test_ret : after (at' 14 [(7, 255)] [(14, 0x11), (255, 8)]) (fun t => (t.pc.toNat, t.sp)) =
    some (8, 0#8) := by decide
theorem test_ret_any_byte : after (at' 14 [] [(14, 0x11), (0, 0x11)]) (fun t => (t.pc.toNat, t.sp)) =
    some (17, 1#8) := by decide
/-- V48, V49. -/
theorem test_jeq_taken : after (flagged false false true (at' 18 [(3, 22)] [(18, 0x55), (19, 3)]))
    (fun t => t.pc.toNat) = some 22 := by decide
theorem test_jeq_not_taken : after (flagged true false false (at' 18 [(3, 22)] [(18, 0x55), (19, 3)]))
    (fun t => t.pc.toNat) = some 20 := by decide
/-- V51, V53. -/
theorem test_jne_taken : after (at' 18 [(3, 22)] [(18, 0x56), (19, 3)]) (fun t => t.pc.toNat) = some 22 := by decide
theorem test_jne_not_taken : after (flagged false false true (at' 18 [(3, 22)] [(18, 0x56), (19, 3)]))
    (fun t => t.pc.toNat) = some 20 := by decide
/-- V47, V55. -/
theorem test_jmp : after (at' 0 [(2, 12)] [(0, 0x54), (1, 2)]) (fun t => t.pc.toNat) = some 12 := by decide
theorem test_jmp_out_of_small_memory : after (small (at' 255 [] [])) fault? = some (some [2, 0, 255, 0, 255]) := by
  decide

/-! ## Faults and the engine -/

/-- V1 to V5, V6, V41, V42, V38, V39, V46, V54. -/
theorem test_fetch_fault : after (at' 256 [] []) fault? = some (some [2, 0, 256, 0, 256]) := by decide
theorem test_illegal : after (at' 0 [] [(0, 0x42)]) fault? = some (some [1, 0, 0, 0x42, 0]) := by decide
theorem test_operand_fault : after (at' 254 [] [(254, 0x82)]) fault? = some (some [2, 1, 254, 0x82, 256]) := by decide
theorem test_first_operand_fault : after (at' 255 [] [(255, 0x47)]) fault? =
    some (some [2, 1, 255, 0x47, 256]) := by decide
theorem test_register_fault : after (at' 0 [] [(0, 0x82), (1, 8), (2, 1)]) fault? =
    some (some [2, 2, 0, 0x82, 8]) := by decide
theorem test_second_register_fault : after (at' 0 [(0, 1)] [(0, 0xA7), (2, 8)]) fault? =
    some (some [2, 2, 0, 0xA7, 8]) := by decide
theorem test_retaddr_fault : after (at' 254 [(1, 11), (7, 0x80)] [(254, 0x50), (255, 1)])
    (fun t => (fault? t, t.sp)) = some (some [2, 4, 254, 0x50, 256], 0x80#8) := by decide
theorem test_push_stack_fault : after (small (at' 0 [(0, 5)] [(0, 0x45)])) (fun t => (fault? t, t.sp)) =
    some (some [2, 3, 0, 0x45, 255], 0#8) := by decide
theorem test_pop_stack_fault : after (small (at' 0 [(7, 255)] [(0, 0x46)])) fault? =
    some (some [2, 3, 0, 0x46, 255]) := by decide
theorem test_call_stack_fault : after (small (at' 0 [(1, 3)] [(0, 0x50), (1, 1)])) fault? =
    some (some [2, 3, 0, 0x50, 255]) := by decide
theorem test_untaken_branch_register_fault : after (at' 18 [] [(18, 0x55), (19, 9)]) fault? =
    some (some [2, 2, 18, 0x55, 9]) := by decide
/-- V8. -/
theorem test_step_limit : after (limited 0 (at' 0 [] [(0, 1)])) (fun t => (t.runState, t.pc.toNat, t.icount.toNat)) =
    some (.stopped, 0, 0) := by decide
/-- 30_encoding.md R42's table against 70_reset_and_hazards.md R97's `fl_o`. -/
theorem test_flO : (flagged true false true (at' 0 [] [])).flO = 0b00000101#8 := by decide

/-! ## Witnesses: states and operands that meet the hypotheses of the statements -/

/-- Levels of a host that resets, loads the last cell, or starts. -/
def rstPins : Pins := { Pins.quiet with rst := true }
def loadPin255 : Pins := { Pins.quiet with ldWe := true, ldAddr := 255#8, ldData := 9#8 }
def startPins : Pins := { Pins.quiet with start := true }
def nextPins (p : Pins) (s : State) : State := { s with inputs := [p] }

/-- A PRN held at the output port. -/
def heldPrn : State := { deaf (at' 0 [(0, 72)] [(0, 0x47)]) with outPending := true }

theorem witness_ResetEdgeResetsEveryState :
    (nextPins rstPins heldPrn).sample.pins.rst = true ∧ heldPrn.outPending = true := by decide

theorem witness_IdleLoadWritesOneCell :
    let s := nextPins loadPin255 State.reset
    s.runState = .idle ∧ s.sample.pins.rst = false ∧ s.sample.pins.ldWe = true ∧
      s.sample.pins.ldAddr.toNat < s.memSize := by decide

theorem witness_HostCannotDisturbOutsideIdle :
    let s := nextPins loadPin255 (at' 0 [] [(0, 1)])
    s.runState ≠ .idle ∧ s.sample.pins.rst = false ∧ s.sample.pins.ldWe = true := by decide

theorem witness_IdleLoadOutOfMemoryIsDropped :
    let s := nextPins loadPin255 (small State.reset)
    s.runState = .idle ∧ s.sample.pins.rst = false ∧ s.sample.pins.ldWe = true ∧
      s.memSize ≤ s.sample.pins.ldAddr.toNat := by decide

/-- The invariant of a reset state with any levels to come. -/
theorem reset_inv_with (ins : List Pins) : State.Inv { State.reset with inputs := ins } :=
  ⟨⟨List.Pairwise.nil, (fun _ h => nomatch h)⟩, (fun _ h => nomatch h), (by decide : (0 : Nat) ≤ 258), rfl, (fun _ => rfl), nofun,
    (fun _ => ⟨rfl, rfl, rfl, rfl, rfl⟩), nofun⟩

theorem witness_StartRunsOnlyFromIdle_idle :
    (nextPins startPins State.reset).runState = .idle ∧ (nextPins startPins State.reset).sample.pins.rst = false ∧
      (nextPins startPins State.reset).sample.pins.start = true ∧ (nextPins startPins State.reset).Inv :=
  ⟨rfl, rfl, rfl, reset_inv_with _⟩
theorem witness_StartRunsOnlyFromIdle_terminal :
    ({ State.reset with runState := .stopped } : State).runState ≠ .idle := by decide

theorem witness_BootLoadsTheProgramAndStarts :
    ∃ pins, loader State.reset.memSize [0x82, 0, 1, 1] = .ok pins ∧
      ({ State.reset with inputs := pins } : State).inputs = pins := ⟨_, rfl, rfl⟩

theorem witness_LoaderChecksBeforeItWrites_tooLarge : 1 < [1, 1].length := by decide
theorem witness_LoaderChecksBeforeItWrites_invalid : [256].length ≤ 1 ∧ ∃ w ∈ [256], 255 < w := by decide
theorem witness_LoaderChecksBeforeItWrites_ok : [255].length ≤ 1 ∧ ∀ w ∈ [255], w ≤ 255 := by decide

theorem witness_RunStateTransitions_reset : (nextPins rstPins (at' 0 [] [])).sample.pins.rst = true := by decide
theorem witness_RunStateTransitions_idle :
    (nextPins startPins State.reset).sample.pins.rst = false ∧ (nextPins startPins State.reset).runState = .idle := by
  decide
theorem witness_RunStateTransitions_halt :
    (at' 0 [] [(0, 1)]).runState = .running ∧ (at' 0 [] [(0, 1)]).limitReached = false ∧
      (at' 0 [] [(0, 1)]).fetch = .ok .hlt := ⟨rfl, rfl, rfl⟩
theorem witness_RunStateTransitions_stop : (limited 0 (at' 0 [] [(0, 1)])).limitReached = true := by decide
theorem witness_RunStateTransitions_ended :
    ({ State.reset with runState := .faulted } : State).ended = true ∧ State.reset.sample.pins.rst = false := by decide

theorem witness_StepLimitStopsBeforeTheFetch_reached :
    let s := limited 0 (at' 0 [] [(0, 1)])
    s.runState = .running ∧ s.sample.pins.rst = false ∧ s.params.stepLimit = some 0 ∧ 0 ≤ s.icount.toNat := by decide
theorem witness_StepLimitStopsBeforeTheFetch_none :
    let s := limited 1 (at' 0 [] [(0, 1)])
    s.params.stepLimit = some 1 ∧ s.icount.toNat < 1 ∧ ∃ t, step s = .next t :=
  ⟨rfl, by decide, _, rfl⟩

theorem witness_StepRunsTheDecodedInstruction :
    let s := at' 255 [] [(255, 0x11)]
    s.runState = .running ∧ s.sample.pins.rst = false ∧ s.limitReached = false ∧
      decode (s.window s.pc.toNat) = .ok (.ret, []) := ⟨rfl, rfl, rfl, rfl⟩

theorem witness_PlacedWordRunsNext : decodeTableWord 8 0x11 = some .ret := by decide

theorem witness_OnlyRetirementCounts_faulted :
    let s := at' 256 [] []
    s.runState = .running ∧ s.sample.pins.rst = false ∧ after s State.runState = some .faulted := by decide
theorem witness_OnlyRetirementCounts_halted : after (at' 0 [] [(0, 1)]) State.runState = some .halted := by decide
theorem witness_OnlyRetirementCounts_running :
    after (at' 0 [] [(0, 0x82)]) (fun t => (t.runState, t.icount.toNat)) = some (.running, 1) := by decide

/-- LDI then HLT: two steps, HALTED with `icount` 2; one step, still RUNNING with `icount` 1. -/
theorem witness_RunsRetireOneInstructionPerStep :
    let s := at' 0 [] [(0, 0x82), (3, 1)]
    s.runState = .running ∧ s.inputs = [] ∧ s.pins = Pins.quiet ∧ s.icount.toNat + 2 < 4294967295 ∧
      (nextState? (Sys2Proof.core.run 1 s)).map State.runState = some .running ∧
      (nextState? (Sys2Proof.core.run 2 s)).map State.runState = some .halted := by decide

/-- The invariant at a state in which every clause says something: a held PRN in the middle of a run. -/
theorem witness_EveryStepKeepsTheInvariant : heldPrn.Inv :=
  ⟨by decide, by decide, by decide, rfl, (fun _ => rfl), nofun, nofun, (fun _ => ⟨rfl, rfl, 0, rfl⟩)⟩

theorem witness_OnlyCmpChangesTheFlags :
    let s := at' 0 [(1, 255)] [(0, 0xA7), (2, 1)]
    s.sample.pins.rst = false ∧ ∃ t, step s = .next t ∧ t.flags ≠ s.flags :=
  ⟨rfl, _, rfl, by decide⟩

theorem witness_OnlyStoresAndLoadsChangeMemory_push :
    let s := at' 0 [(0, 1)] [(0, 0x45)]
    s.sample.pins.rst = false ∧ ∃ t, step s = .next t ∧ t.mem.read 255 ≠ s.mem.read 255 :=
  ⟨rfl, _, rfl, by decide⟩
theorem witness_OnlyStoresAndLoadsChangeMemory_load :
    let s := nextPins loadPin255 State.reset
    s.sample.pins.rst = false ∧ ∃ t, step s = .next t ∧ t.mem.read 255 ≠ s.mem.read 255 :=
  ⟨rfl, _, rfl, by decide⟩

theorem witness_OnlyAcceptedPrnExtendsTheTrace :
    let s := at' 0 [(0, 72)] [(0, 0x47)]
    s.sample.pins.rst = false ∧ ∃ t, step s = .next t ∧ t.trace ≠ s.trace :=
  ⟨rfl, _, rfl, by decide⟩

theorem witness_ProgramsCannotSeeTheBookkeeping :
    let s := at' 0 [(0, 72)] [(0, 0x47)]
    let u := { flagged true false false s with icount := 5#32, trace := [1#8], ldErr := true }
    s.params.stepLimit = none ∧ s.visible = u.visible ∧ s ≠ u := by decide

theorem witness_FaultEntryWritesOnlyTheRecord :
    let s := at' 256 [] []
    s.runState = .running ∧ ∃ t, step s = .next t ∧ t.runState = .faulted := ⟨rfl, _, rfl, rfl⟩

/-! One witness for each clause of the fault order; RUNNING, no reset, no limit but in the first. -/

theorem witness_FirstFault_limit : (limited 0 (at' 256 [] [])).limitReached = true := by decide
theorem witness_FirstFault_fetch :
    let s := at' 256 [] []
    s.runState = .running ∧ s.sample.pins.rst = false ∧ s.limitReached = false ∧ s.memSize ≤ s.pc.toNat := by decide
theorem witness_FirstFault_illegal :
    let s := at' 255 [] []
    s.limitReached = false ∧ s.pc.toNat < s.memSize ∧ opOfByte (s.mem.read s.pc.toNat) = none := by decide
theorem witness_FirstFault_operand1 :
    let s := at' 255 [] [(255, 0x47)]
    s.pc.toNat < s.memSize ∧ opOfByte (s.mem.read s.pc.toNat) = some .prn ∧ 1 ≤ Op.prn.operandCount ∧
      s.memSize ≤ s.pc.toNat + 1 := by decide
theorem witness_FirstFault_operand2 :
    let s := at' 254 [] [(254, 0x82)]
    opOfByte (s.mem.read s.pc.toNat) = some .ldi ∧ Op.ldi.operandCount = 2 ∧ s.pc.toNat + 1 < s.memSize ∧
      s.memSize ≤ s.pc.toNat + 2 := by decide
theorem witness_FirstFault_register :
    (at' 0 [] [(0, 0xA7), (2, 8)]).fetch = .ok (.cmp 0#8 8#8) ∧
      (Instr.cmp 0#8 8#8).regOperands = [0#8] ++ 8#8 :: [] ∧ (∀ x ∈ [0#8], x.toNat < 8) ∧ 8 ≤ (8#8).toNat :=
  ⟨rfl, rfl, by decide, by decide⟩
theorem witness_FirstFault_retaddr :
    (small (at' 253 [] [(253, 0x50), (254, 1)])).fetch = .ok (.call (regByte 1)) ∧
      (at' 254 [] [(254, 0x50), (255, 1)]).fetch = .ok (.call (regByte 1)) ∧ 255 < 254 + 2 :=
  ⟨rfl, rfl, by decide⟩
theorem witness_FirstFault_callStack :
    let s := small (at' 253 [] [(253, 0x50), (254, 1)])
    s.pc.toNat + 2 ≤ 255 ∧ s.memSize ≤ s.pushAddr.toNat := by decide
theorem witness_FirstFault_pushStack :
    (small (at' 0 [] [(0, 0x45)])).fetch = .ok (.push (regByte 0)) ∧
      (small (at' 0 [] [(0, 0x45)])).memSize ≤ (small (at' 0 [] [(0, 0x45)])).pushAddr.toNat := ⟨rfl, by decide⟩
theorem witness_FirstFault_popStack :
    (small (at' 0 [(7, 255)] [(0, 0x46)])).fetch = .ok (.pop (regByte 0)) ∧
      (small (at' 0 [(7, 255)] [(0, 0x46)])).memSize ≤ (small (at' 0 [(7, 255)] [(0, 0x46)])).sp.toNat :=
  ⟨rfl, by decide⟩
theorem witness_FirstFault_retStack :
    (small (at' 0 [(7, 255)] [(0, 0x11)])).fetch = .ok .ret ∧
      (small (at' 0 [(7, 255)] [(0, 0x11)])).memSize ≤ (small (at' 0 [(7, 255)] [(0, 0x11)])).sp.toNat :=
  ⟨rfl, by decide⟩

theorem witness_BadRegisterOperandFaultsFirst_first :
    (Instr.add 8#8 255#8).regOperands = [] ++ 8#8 :: [255#8] ∧ (∀ x ∈ ([] : List Byte), x.toNat < 8) ∧
      8 ≤ (8#8).toNat := by decide
theorem witness_BadRegisterOperandFaultsFirst_second :
    (Instr.add 7#8 8#8).regOperands = [7#8] ++ 8#8 :: [] ∧ (∀ x ∈ [7#8], x.toNat < 8) ∧ 8 ≤ (8#8).toNat := by decide

theorem witness_MemoryPrimitives_last_and_past : 255 < (at' 0 [] []).memSize ∧ (at' 0 [] []).memSize ≤ 256 := by decide

theorem witness_EqualReadingMemoriesAreEqual :
    let m : Memory := (Memory.write [] 3 5#8).write 1 2#8
    let n : Memory := ((Memory.write [] 1 2#8).write 9 7#8).write 3 5#8 |>.write 9 0#8
    m.wf ∧ n.wf ∧ m = n := by decide

/-- PUSH of the PRN opcode as the opcode at `pc + 2`: inside memory, its operand the byte that follows. -/
theorem witness_NextFetchSeesThePushedByte_push :
    let s := at' 6 [(0, 0x47), (7, 9)] [(6, 0x45)]
    s.runState = .running ∧ s.limitReached = false ∧ s.sample.pins.rst = false ∧
      s.fetch = .ok (.push (regByte 0)) ∧ s.pushAddr.toNat < s.memSize ∧ s.reg 0 = 0x47#8 ∧
      s.pushAddr.toNat = s.pc.toNat + 2 ∧ opOfByte 0x47#8 = some .prn :=
  ⟨rfl, rfl, rfl, rfl, by decide, rfl, rfl, rfl⟩
/-- CALL of R7 at 15: the return byte 17 is RET's opcode, at the decremented SP, the last byte of memory. -/
theorem witness_NextFetchSeesThePushedByte_call :
    let s := at' 15 [] [(15, 0x50), (16, 7)]
    s.runState = .running ∧ s.limitReached = false ∧ s.sample.pins.rst = false ∧
      s.fetch = .ok (.call (regByte 7)) ∧ s.pushAddr.toNat < s.memSize ∧ (0x11#8).toNat = s.pc.toNat + 2 ∧
      s.pushAddr.toNat = 255 ∧ opOfByte 0x11#8 = some .ret ∧ 255 + Op.ret.operandCount < s.memSize :=
  ⟨rfl, rfl, rfl, rfl, by decide, rfl, rfl, rfl, by decide⟩
/-- A pushed byte that is no opcode, and one whose operand is past memory. -/
theorem witness_NextFetchSeesThePushedByte_faults :
    opOfByte ((at' 6 [(0, 2)] []).reg 0) = none ∧ opOfByte 0x50#8 = some .call ∧
      (at' 0x4E [] [(0x4E, 0x50), (0x4F, 7)]).memSize ≤ 255 + Op.call.operandCount := by decide
/-- PUSH of an immediate into the next LDI, its byte 2. -/
theorem witness_NextFetchSeesThePushedByte_operand :
    let s := at' 6 [(0, 9), (7, 11)] [(6, 0x45), (8, 0x82)]
    s.fetch = .ok (.push (regByte 0)) ∧ s.pushAddr.toNat = (s.pc.toNat + 2) + 2 ∧ 2 ≤ Op.ldi.operandCount ∧
      after s (fun t => t.fetch) = some (.ok (.ldi 0#8 9#8)) := ⟨rfl, rfl, by decide, rfl⟩

theorem witness_PrnEmitsOrHolds :
    (at' 0 [] []).pins.outReady = true ∧ (deaf (at' 0 [] [])).pins.outReady = false := by decide

theorem witness_PrnEmitsOnceAfterAnyHold :
    let s := { at' 254 [(7, 72)] [(254, 0x47), (255, 7)] with
      inputs := List.replicate (3 + 1) { Pins.quiet with outReady := false } ++ [Pins.quiet] }
    s.runState = .running ∧ s.limitReached = false ∧ s.fetch = .ok (.prn (regByte 7)) ∧ s.inputs.length = 5 :=
  ⟨rfl, rfl, rfl, rfl⟩

theorem witness_PushStoresBelowTheStackPointer :
    (at' 0 [] []).pushAddr.toNat < (at' 0 [] []).memSize ∧
      (small (at' 0 [] [])).memSize ≤ (small (at' 0 [] [])).pushAddr.toNat := by decide
theorem witness_PopLoadsFromTheStackPointer :
    (at' 0 [(7, 255)] []).sp.toNat < (at' 0 [(7, 255)] []).memSize ∧
      (small (at' 0 [(7, 255)] [])).memSize ≤ (small (at' 0 [(7, 255)] [])).sp.toNat := by decide
theorem witness_CallPushesTheReturnAddress_completes :
    (at' 253 [] []).pc.toNat + 2 ≤ 255 ∧ (at' 253 [] []).pushAddr.toNat < (at' 253 [] []).memSize := by decide
theorem witness_CallPushesTheReturnAddress_retaddr : 255 < (at' 254 [] []).pc.toNat + 2 := by decide
theorem witness_CallPushesTheReturnAddress_stack :
    (small (at' 253 [] [])).pc.toNat + 2 ≤ 255 ∧
      (small (at' 253 [] [])).memSize ≤ (small (at' 253 [] [])).pushAddr.toNat := by decide
theorem witness_RetReturnsToTheByteOnTheStack :
    (at' 0 [(7, 255)] []).sp.toNat < (at' 0 [(7, 255)] []).memSize ∧
      (small (at' 0 [(7, 255)] [])).memSize ≤ (small (at' 0 [(7, 255)] [])).sp.toNat := by decide

theorem witness_JumpsFollowTheDispatcher_taken :
    (Instr.jeq (regByte 7) = .jeq (regByte 7) ∧ true = (flagged false false true (at' 0 [] [])).flags.e) ∧
      (small (at' 0 [(7, 255)] [])).memSize ≤ ((small (at' 0 [(7, 255)] [])).reg 7).toNat := by decide
theorem witness_JumpsFollowTheDispatcher_notTaken :
    Instr.jne (regByte 3) = .jne (regByte 3) ∧ false = !(flagged false false true (at' 0 [] [])).flags.e := by decide
theorem witness_JumpsFollowTheDispatcher_always :
    Instr.jmp (regByte 0) = .jmp (regByte 0) ∧ true = true := by decide

theorem witness_PushThenPopRestoresRegisters : (at' 0 [(7, 0x10)] []).pushAddr.toNat < (at' 0 [(7, 0x10)] []).memSize := by
  decide
theorem witness_RetUndoesCall :
    let s := at' 6 [(1, 11)] [(6, 0x50), (7, 1)]
    s.pc.toNat + 2 ≤ 255 ∧ s.pushAddr.toNat < s.memSize ∧
      ∃ t, exec (.call (regByte 1)) s = .next t ∧
        t.sp = t.sp ∧ t.mem.read t.sp.toNat = t.mem.read t.sp.toNat ∧ t.params = s.params :=
  ⟨by decide, by decide, _, rfl, rfl, rfl, rfl⟩

theorem witness_DecodeAndEncodeAgree : decode [0x82#8, 7#8, 255#8, 1#8] = .ok (.ldi 7#8 255#8, [1#8]) := by rfl
theorem witness_EveryOtherOpcodeIsIllegal :
    opOfByte 0x82#8 = some .ldi ∧ ([7#8] : List Byte).length < Op.ldi.operandCount := by decide

theorem witness_OutputPortsReportTheState :
    (255#8).toNat < (at' 0 [] []).memSize ∧ (small (at' 0 [] [])).memSize ≤ (255#8).toNat := by decide

end Sys2Proof.Tests
end

section
/-! PROOFS. The reset state (10_state.md R22). -/

namespace Sys2Proof.Machine

/-- A register of the reset state: `SP_RESET` in R7, 0 in every other one (10_state.md R22). -/
@[simp] theorem State.resetWith_reg (p : Params) (k : RegIx) :
    (State.resetWith p).reg k = if k = 7 then p.spReset else 0#8 :=
  resetRegs_get p k

/-- The reset state holds the reset table, for any model arguments (10_state.md R22). -/
theorem State.resetWith_hasResetValues (p : Params) : (State.resetWith p).HasResetValues := by
  have general : ∀ k : RegIx, k ≠ 7 → (State.resetWith p).reg k = 0#8 := fun k hk => by simp [hk]
  have stackPointer : (State.resetWith p).reg 7 = p.spReset := by simp
  have cells : ∀ a : Nat, (State.resetWith p).mem.read a = 0#8 := Memory.read_nil
  exact ⟨general, stackPointer, rfl, rfl, rfl, rfl, cells, rfl, rfl, rfl, rfl, rfl, rfl, rfl, rfl, rfl, rfl⟩

/-- Settles O1: the reset table holds for every choice of model arguments, and the default `SP_RESET` is 0. -/
theorem powerOnStateIsTheResetTable : Obligations.PowerOnStateIsTheResetTable := by
  intro p
  have defaultStackPointer : State.reset.reg 7 = 0#8 := State.resetWith_reg Config.defaultParams 7
  exact ⟨State.resetWith_hasResetValues p, rfl, State.resetWith_hasResetValues Config.defaultParams,
    defaultStackPointer⟩

end Sys2Proof.Machine
end

section
/-! PROOFS. The immediate operand (30_encoding.md R41). -/

namespace Sys2Proof.Machine

/-- Retirement of a state whose count, fault record and environment are still those of `s` (40_engine.md R57, R58). -/
theorem retires_retire {s t : State} (count : t.icount = s.icount) (record : t.fault = s.fault) (env : sameEnv s t) :
    retires s t.retire := by
  have counted : t.retire.icount.toNat = min (s.icount.toNat + 1) 4294967295 := by
    rw [State.retire_icount, icountNext_toNat, count]
  exact ⟨counted, record, env⟩

/-- LDI's two operand bytes are taken as they stand. -/
theorem decode_ldi (b imm : Byte) (rest : List Byte) :
    decode (opcodeOf .ldi :: b :: imm :: rest) = .ok (.ldi b imm, rest) :=
  decode_needs2 _ b imm .ldi .ldi rest (opOfByte_opcodeOf .ldi) rfl

/-- Only LDI has an operand byte that is no register operand (30_encoding.md R41). -/
theorem operandBytes_ne_regOperands_iff (i : Instr) :
    i.operandBytes ≠ i.regOperands ↔ ∃ b imm, i = .ldi b imm := by
  constructor
  · intro differ
    cases i with
    | ldi b imm => exact ⟨b, imm, rfl⟩
    | _ => exact absurd rfl differ
  · rintro ⟨b, imm, rfl⟩
    simp [Instr.operandBytes, Instr.regOperands]

/-- Settles O31: the decoder's two-operand case, the operand lists constructor by constructor, and the frame of the
state `exec_ldi` answers. -/
theorem ldiLoadsTheImmediate : Obligations.LdiLoadsTheImmediate := by
  refine ⟨decode_ldi, operandBytes_ne_regOperands_iff, fun r imm s => ⟨_, exec_ldi r imm s, ?_⟩⟩
  have loaded : (s.setReg r imm).reg r = imm := by simp
  have kept : ∀ k, k ≠ r → (s.setReg r imm).reg k = s.reg k := fun k hk => by simp [hk]
  exact ⟨loaded, kept, rfl, fun _ => rfl, rfl, rfl, ⟨rfl, rfl⟩, retires_retire rfl rfl ⟨rfl, rfl, rfl, rfl⟩⟩

end Sys2Proof.Machine
end

section
/-! PROOFS. The run states (40_engine.md R49) and the step limit (R51). -/

namespace Sys2Proof.Machine

/-- Every edge answers a next state: the machine neither stops outside its own run states nor refuses. -/
theorem step_eq_next (s : State) : ∃ t, step s = .next t := by
  have outcome := step_outcome s
  generalize step s = result at outcome ⊢
  cases outcome with
  | ran _ _ _ _ _ _ executed => cases executed <;> exact ⟨_, rfl⟩
  | _ => exact ⟨_, rfl⟩

/-- The four ways a RUNNING step without reset can end, each with what decides it: the step limit, then whether HLT was
fetched, then whether the step faulted (40_engine.md R49). -/
theorem step_running_runState_cases {s t : State} (running : s.runState = .running)
    (noReset : s.sample.pins.rst = false) (stepped : step s = .next t) :
    (s.limitReached = true ∧ t = s.ready.setRun .stopped) ∨
    (s.limitReached = false ∧ s.fetch = .ok .hlt ∧ t.runState = .halted) ∨
    (s.limitReached = false ∧ s.fetch ≠ .ok .hlt ∧ ∃ c op, t = s.ready.raise c op) ∨
    (s.limitReached = false ∧ s.fetch ≠ .ok .hlt ∧ t.runState = .running) := by
  have readyRunning : s.ready.runState = .running := by simp [State.ready, running]
  rcases step_running_cases running noReset stepped with
    limit | ⟨below, c, op, fetched, rfl⟩ | ⟨below, i, fetched, executed⟩
  · exact .inl limit
  · exact .inr (.inr (.inl ⟨below, by simp [fetched], c, op, rfl⟩))
  by_cases isHlt : i = .hlt
  · subst isHlt
    rw [step_exec s noReset running below .hlt fetched, exec_hlt] at stepped
    cases stepped
    exact .inr (.inl ⟨below, fetched, rfl⟩)
  have notHlt : s.fetch ≠ .ok .hlt := by simpa [fetched] using isHlt
  rcases executed with ⟨k, info, -, rfl⟩ | ⟨r, -, -, rfl⟩ | ⟨u, effect, rfl⟩
  · exact .inr (.inr (.inl ⟨below, notHlt, _, _, rfl⟩))
  · exact .inr (.inr (.inr ⟨below, notHlt, readyRunning⟩))
  · have stays : u.runState = .running := by rw [effect.runState, if_neg isHlt, readyRunning]
    exact .inr (.inr (.inr ⟨below, notHlt, stays⟩))

/-- What each run state after a RUNNING step says of that step: the RUNNING row of the table of 40_engine.md R49. -/
theorem step_running_transitions {s t : State} (running : s.runState = .running)
    (noReset : s.sample.pins.rst = false) (stepped : step s = .next t) :
    t.runState ≠ .idle ∧
    (t.runState = .halted ↔ s.limitReached = false ∧ s.fetch = .ok .hlt) ∧
    (t.runState = .stopped ↔ s.limitReached = true) ∧
    (t.runState = .faulted ↔ ∃ c op, t = s.ready.raise c op) := by
  have raised_faulted : (∃ c op, t = s.ready.raise c op) → t.runState = .faulted := by
    rintro ⟨c, op, rfl⟩
    rfl
  rcases step_running_runState_cases running noReset stepped with
    ⟨reached, rfl⟩ | ⟨below, fetched, halts⟩ | ⟨below, notHlt, raised⟩ | ⟨below, notHlt, stays⟩
  · exact ⟨by simp, by simp [reached], by simp [reached], by simp, raised_faulted⟩
  · exact ⟨by simp [halts], by simp [halts, below, fetched], by simp [halts, below], by simp [halts], raised_faulted⟩
  · have faults := raised_faulted raised
    exact ⟨by simp [faults], by simp [faults, notHlt], by simp [faults, below], fun _ => raised, raised_faulted⟩
  · exact ⟨by simp [stays], by simp [stays, notHlt], by simp [stays, below], by simp [stays], raised_faulted⟩

/-- In IDLE the core changes nothing but the run state, and that only on `start` (40_engine.md R49). -/
theorem State.startEdge_ready (s : State) (idle : s.runState = .idle) :
    s.ready.startEdge = { s.ready with runState := if s.sample.pins.start then .running else .idle } := by
  have readyIdle : s.ready.runState = .idle := by simp [State.ready, idle]
  rw [State.startEdge, State.ready_pins]
  cases s.sample.pins.start with
  | true => rfl
  | false => rw [if_neg Bool.false_ne_true, if_neg Bool.false_ne_true, ← readyIdle]

/-- A run that has ended is neither IDLE nor RUNNING (40_engine.md R61). -/
theorem State.ended_not_idle_not_running (s : State) (ended : s.ended = true) :
    s.runState ≠ .idle ∧ s.runState ≠ .running := by
  constructor <;> intro h <;> simp [State.ended, h] at ended

/-- Settles O9: the step's next state exists, and its run state is read off run state by run state: the reset edge, the
start edge, the four ends of a RUNNING step, and the idle edge of an ended run. -/
theorem runStateTransitions : Obligations.RunStateTransitions := by
  intro s
  obtain ⟨t, stepped⟩ := step_eq_next s
  refine ⟨t, stepped, fun reset => ?_, fun noReset => ⟨fun idle => ?_, fun running => ?_, fun ended => ?_⟩⟩
  · rw [step_reset s reset] at stepped
    cases stepped
    rfl
  · rw [step_idle s noReset idle, State.startEdge_ready s idle] at stepped
    cases stepped
    rfl
  · exact step_running_transitions running noReset stepped
  · obtain ⟨notIdle, notRunning⟩ := s.ended_not_idle_not_running ended
    rw [step_terminal s noReset notIdle notRunning] at stepped
    cases stepped
    obtain ⟨regs, pc, -, mem, runState, -⟩ := s.ready_fields notIdle
    exact ⟨rfl, runState, fun k => congrArg (·[k]) regs, fun a => congrArg (·.read a) mem, pc⟩

/-- The step limit is reached exactly when there is one and `icount` is not below it (40_engine.md R51). -/
theorem State.limitReached_iff (s : State) :
    s.limitReached = true ↔ ∃ n, s.params.stepLimit = some n ∧ n ≤ s.icount.toNat := by
  unfold State.limitReached
  cases s.params.stepLimit <;> simp

/-- Settles O10: a reached limit is the step's first test, and a RUNNING step ends STOPPED only by that test. -/
theorem stepLimitStopsBeforeTheFetch : Obligations.StepLimitStopsBeforeTheFetch := by
  intro s running noReset
  refine ⟨fun n limit reached => ?_, fun below t stepped stopped => ?_⟩
  · exact step_limit s noReset running (s.limitReached_iff.mpr ⟨n, limit, reached⟩)
  · obtain ⟨-, -, stopped_iff, -⟩ := step_running_transitions running noReset stepped
    obtain ⟨n, limit, reached⟩ := s.limitReached_iff.mp (stopped_iff.mp stopped)
    exact absurd reached (Nat.not_le.mpr (below n limit))

end Sys2Proof.Machine
end

section
/-! PROOFS. Register operands that name no register (40_engine.md R55, 30_encoding.md R40). -/

namespace Sys2Proof.Machine

/-! ### the register operand decoder -/

theorem regIndex_eq_ok_iff (b : Byte) (r : RegIx) : regIndex b = .ok r ↔ r.val = b.toNat := by
  rcases regIndex_cases b with ⟨i, rfl⟩ | ⟨bad, faults⟩
  · simp [Fin.ext_iff, eq_comm]
  · have := r.isLt
    simp only [faults, reduceCtorEq, false_iff]
    omega

theorem regIndex_eq_error_iff (b : Byte) :
    regIndex b = .error (.outOfBoundsAccess .register (zext9 b)) ↔ 8 ≤ b.toNat := by
  refine ⟨fun faults => ?_, regIndex_bad b⟩
  rcases regIndex_cases b with ⟨i, rfl⟩ | ⟨bad, -⟩
  · simp at faults
  · exact bad

/-! ### which operand bytes are register operands (30_encoding.md R39) -/

theorem regOperands_of_format_z (i : Instr) (z : i.op.format = .z) : i.regOperands = [] := by
  cases i with
  | hlt => rfl
  | ret => rfl
  | _ => cases z

/-- Every format but RI has no operand byte that is not a register operand. -/
theorem regOperands_of_format_ne_ri (i : Instr) (notRi : i.op.format ≠ .ri) : i.regOperands = i.operandBytes := by
  by_contra differ
  obtain ⟨b, imm, rfl⟩ := (operandBytes_ne_regOperands_iff i).mp (Ne.symm differ)
  exact notRi rfl

theorem regOperands_of_format_ri (i : Instr) (ri : i.op.format = .ri) : i.regOperands = i.operandBytes.take 1 := by
  cases i with
  | ldi r imm => rfl
  | _ => cases ri

/-! ### the fault -/

/-- A handler that answers the REGISTER fault leaves the state before it with that fault entered, and nothing else
changed (60_exceptions.md R86). -/
theorem complete_register_fault (o : Op) (s : State) {handler : Except FaultCause State} {b : Byte}
    (faults : handler = .error (.outOfBoundsAccess .register (zext9 b))) :
    complete o s handler = .next (faultedWith s 2#2 2#3 (opcodeOf o) (zext9 b)) := by
  rw [faults]
  rfl

/-- The one element of a list is the one that any splitting of it shows. -/
theorem eq_of_singleton_eq_append_cons {r b : Byte} {pre post : List Byte} (split : [r] = pre ++ b :: post) :
    r = b := by
  have inside : b ∈ [r] := by simp [split]
  exact (List.mem_singleton.mp inside).symm

/-- Of two register operands the first bad one is the one reported: the first is checked before the second. -/
theorem aluHandler_first_bad (sel : BitVec 2) (s : State) {rA rB b : Byte} {pre post : List Byte}
    (split : [rA, rB] = pre ++ b :: post) (valid : ∀ x ∈ pre, x.toNat < 8) (bad : 8 ≤ b.toNat) :
    aluHandler sel rA rB s = .error (.outOfBoundsAccess .register (zext9 b)) := by
  cases pre with
  | nil =>
    obtain ⟨rfl, -⟩ := List.cons_eq_cons.mp split
    exact aluHandler_badA sel rA rB s bad
  | cons x pre =>
    obtain ⟨rfl, splitTail⟩ := List.cons_eq_cons.mp split
    obtain rfl := eq_of_singleton_eq_append_cons splitTail
    rw [eq_regByte rA (valid rA List.mem_cons_self)]
    exact aluHandler_badB sel _ rB s bad

/-- A handler that rejects its only register operand: the fault names the operand. -/
theorem complete_bad_operand (o : Op) (s : State) {handler : Except FaultCause State} {r b : Byte}
    {pre post : List Byte}
    (rejects : 8 ≤ r.toNat → handler = .error (.outOfBoundsAccess .register (zext9 r)))
    (split : [r] = pre ++ b :: post) (bad : 8 ≤ b.toNat) :
    complete o s handler = .next (faultedWith s 2#2 2#3 (opcodeOf o) (zext9 b)) := by
  obtain rfl := eq_of_singleton_eq_append_cons split
  exact complete_register_fault o s (rejects bad)

/-- A PRN of no register is neither held nor emitted: it faults whether or not the host accepts. -/
theorem execPrn_bad (r : Byte) (s : State) (bad : 8 ≤ r.toNat) :
    execPrn r s = .next (faultedWith s 2#2 2#3 (opcodeOf .prn) (zext9 r)) := by
  rw [execPrn, prnHandler_bad r s bad]
  rfl

/-- The first bad register operand faults before the instruction does anything (40_engine.md R55). -/
theorem exec_first_bad_register (i : Instr) (s : State) (pre : List Byte) (b : Byte) (post : List Byte)
    (split : i.regOperands = pre ++ b :: post) (valid : ∀ x ∈ pre, x.toNat < 8) (bad : 8 ≤ b.toNat) :
    exec i s = .next (faultedWith s 2#2 2#3 (opcodeOf i.op) (zext9 b)) := by
  cases i with
  | hlt | ret => simp [Instr.regOperands] at split
  | ldi r imm => exact complete_bad_operand .ldi s (ldiHandler_bad r imm s) split bad
  | prn r =>
    obtain rfl := eq_of_singleton_eq_append_cons split
    exact execPrn_bad r s bad
  | mul rA rB => exact complete_register_fault .mul s (aluHandler_first_bad _ s split valid bad)
  | add rA rB => exact complete_register_fault .add s (aluHandler_first_bad _ s split valid bad)
  | cmp rA rB => exact complete_register_fault .cmp s (aluHandler_first_bad _ s split valid bad)
  | push r => exact complete_bad_operand .push s (pushHandler_bad r s) split bad
  | pop r => exact complete_bad_operand .pop s (popHandler_bad r s) split bad
  | call r => exact complete_bad_operand .call s (callHandler_bad r s) split bad
  | jeq r => exact complete_bad_operand .jeq s (jumpHandler_bad _ r s) split bad
  | jne r => exact complete_bad_operand .jne s (jumpHandler_bad _ r s) split bad
  | jmp r => exact complete_bad_operand .jmp s (jumpHandler_bad _ r s) split bad

/-- Settles O23: the fault by cases on the instruction, the register operands of each format, and the register decoder
in both directions. -/
theorem badRegisterOperandFaultsFirst : Obligations.BadRegisterOperandFaultsFirst := by
  refine ⟨exec_first_bad_register, fun i => ⟨regOperands_of_format_z i, fun rOrRr => ?_, regOperands_of_format_ri i⟩,
    fun b => ⟨regIndex_eq_ok_iff b, regIndex_eq_error_iff b⟩⟩
  have notRi : i.op.format ≠ .ri := by rcases rOrRr with h | h <;> simp [h]
  exact regOperands_of_format_ne_ri i notRi

end Sys2Proof.Machine
end

section
/-! PROOFS. The conditional branch dispatcher (45_branch.md R77 to R80). -/

namespace Sys2Proof.Machine

/-- The instruction of each row of the dispatcher. -/
def Jump.instr : Jump → Byte → Instr
  | .always => .jmp
  | .ifEqual => .jeq
  | .ifNotEqual => .jne

/-- Where a jump on register `r` leaves the pc (45_branch.md R77). -/
def State.jumpTarget (s : State) (r : RegIx) (taken : Bool) : Word9 :=
  if taken then zext9 (s.reg r) else s.seqPc 1

@[simp] theorem State.jumpTarget_taken (s : State) (r : RegIx) : s.jumpTarget r true = zext9 (s.reg r) := rfl

@[simp] theorem State.jumpTarget_notTaken (s : State) (r : RegIx) : s.jumpTarget r false = s.pc + 2#9 := rfl

/-- Of the three flags the dispatcher reads E only. -/
theorem Jump.taken_congr (j : Jump) {f f' : Flags} (equal : f'.e = f.e) : j.taken f' = j.taken f := by
  cases j with
  | always => rfl
  | ifEqual => exact equal
  | ifNotEqual => exact congrArg (!·) equal

theorem exec_jump_eq_complete (j : Jump) (b : Byte) (s : State) :
    exec (j.instr b) s = complete (j.instr b).op s (jumpHandler j b s) := by
  cases j <;> rfl

/-- A jump on a register always completes, and writes the pc alone. -/
theorem exec_jump (j : Jump) (r : RegIx) {s : State} {taken : Bool} (dispatched : j.taken s.flags = taken) :
    exec (j.instr (regByte r)) s = .next (s.setPc (s.jumpTarget r taken)).retire := by
  rw [exec_jump_eq_complete, jumpHandler_reg, complete_ok, dispatched, State.jumpTarget]

/-- A pc outside memory faults FETCH, and the record holds no opcode (40_engine.md R52). -/
theorem State.fetch_of_pc_outside (s : State) (outside : s.memSize ≤ s.pc.toNat) :
    s.fetch = .error (.outOfBoundsAccess .fetch s.pc, 0#8) := by
  rw [State.fetch, State.memRead_error _ _ _ outside, BitVec.ofNat_toNat, BitVec.setWidth_eq]

/-- Settles O38: the three instructions are the rows of the dispatcher, which does not read L or G, and what a jump
leaves is read off the one state `exec_jump` answers. -/
theorem jumpsFollowTheDispatcher : Obligations.JumpsFollowTheDispatcher := by
  intro r s i taken row
  obtain ⟨j, rfl, dispatched⟩ : ∃ j : Jump, i = j.instr (regByte r) ∧ j.taken s.flags = taken := by
    rcases row with ⟨rfl, rfl⟩ | ⟨rfl, rfl⟩ | ⟨rfl, rfl⟩
    · exact ⟨.always, rfl, rfl⟩
    · exact ⟨.ifEqual, rfl, rfl⟩
    · exact ⟨.ifNotEqual, rfl, rfl⟩
  refine ⟨_, exec_jump j r dispatched, ?taken, ?notTaken, fun l g => ?readsNoLG, fun _ => rfl, rfl, fun _ => rfl, rfl,
    ⟨rfl, rfl⟩, retires_retire rfl rfl ⟨rfl, rfl, rfl, rfl⟩⟩
  case taken =>
    rintro rfl
    have target : (s.setPc (s.jumpTarget r true)).retire.pc.toNat = (s.reg r).toNat := by simp
    refine ⟨target, fun outside => State.fetch_of_pc_outside _ ?_⟩
    rwa [target]
  case notTaken =>
    rintro rfl
    simp
  case readsNoLG =>
    have sameRow : j.taken { s.flags with l := l, g := g } = j.taken s.flags := j.taken_congr rfl
    exact exec_jump j r (sameRow.trans dispatched)

end Sys2Proof.Machine
end

section
/-! PROOFS. Fault entry (60_exceptions.md R86) and the order of the fault conditions (R87). -/

namespace Sys2Proof.Machine

/-! ### what an edge hands to a RUNNING core -/

theorem State.ready_memSize (s : State) (notIdle : s.runState ≠ .idle) : s.ready.memSize = s.memSize := by
  obtain ⟨-, -, -, -, -, -, -, -, -, params⟩ := s.ready_fields notIdle
  rw [State.memSize, State.memSize, params]

theorem State.ready_pc (s : State) (notIdle : s.runState ≠ .idle) : s.ready.pc = s.pc := by
  obtain ⟨-, pc, -⟩ := s.ready_fields notIdle
  exact pc

theorem State.ready_sp (s : State) (notIdle : s.runState ≠ .idle) : s.ready.sp = s.sp := by
  obtain ⟨regs, -⟩ := s.ready_fields notIdle
  exact congrArg (·[Config.spIndex]) regs

theorem State.ready_pushAddr (s : State) (notIdle : s.runState ≠ .idle) : s.ready.pushAddr = s.pushAddr :=
  congrArg (· - 1#8) (s.ready_sp notIdle)

/-! ### the faults of opcode and operand fetch (40_engine.md R52 to R54) -/

theorem State.fetch_of_illegal (s : State) (inside : s.pc.toNat < s.memSize)
    (illegal : opOfByte (s.mem.read s.pc.toNat) = none) :
    s.fetch = .error (.illegalInstruction, s.mem.read s.pc.toNat) := by
  simp only [State.fetch, State.memRead_ok _ _ _ inside, illegal]

/-- The first operand byte past memory is the one reported: `n` operand bytes exist, and the next one, which the opcode
asks for, does not (40_engine.md R54). -/
theorem State.fetch_of_operand_outside (s : State) (o : Op) (n : Nat)
    (matched : opOfByte (s.mem.read s.pc.toNat) = some o) (needed : n < o.operandCount)
    (inside : s.pc.toNat + n < s.memSize) (outside : s.memSize ≤ s.pc.toNat + (n + 1)) :
    s.fetch =
      .error (.outOfBoundsAccess .operand (BitVec.ofNat 9 (s.pc.toNat + (n + 1))), s.mem.read s.pc.toNat) := by
  have opcodeInside : s.pc.toNat < s.memSize := by omega
  have count := form_operandCount o
  simp only [State.fetch, State.memRead_ok _ _ _ opcodeInside, matched]
  cases form : o.form with
  | whole i =>
    simp only [form] at count
    omega
  | needs1 k =>
    simp only [form] at count
    obtain rfl : n = 0 := by omega
    simp only [State.memRead_error _ _ _ outside]
  | needs2 k =>
    simp only [form] at count
    obtain rfl | rfl : n = 0 ∨ n = 1 := by omega
    · simp only [State.memRead_error _ _ _ outside]
    · simp only [State.memRead_ok _ _ _ inside, State.memRead_error _ _ _ outside]

/-! ### the faults of a fetched instruction -/

/-- A fetched instruction that raises in the state the edge hands it: the record holds the byte at `pc`. -/
theorem step_of_exec_raise {s : State} {i : Instr} {kind : AccessKind} {info : Word9}
    (running : s.runState = .running) (noReset : s.sample.pins.rst = false) (below : s.limitReached = false)
    (fetched : s.fetch = .ok i)
    (raises : exec i s.ready = .next (s.ready.raise (.outOfBoundsAccess kind info) (opcodeOf i.op))) :
    step s = .next (faultedWith s.ready 2#2 kind.code (s.mem.read s.pc.toNat) info) := by
  rw [step_exec s noReset running below i fetched, raises, s.fetch_ok_opcode i fetched]
  rfl

/-- POP and RET both load from SP, and fault STACK where that cell does not exist (43_stack.md R73, 44_subroutine.md
R75). -/
theorem exec_pop_or_ret_stack {i : Instr} {r : RegIx} (s : State) (popOrRet : i = .pop (regByte r) ∨ i = .ret)
    (outside : s.memSize ≤ s.sp.toNat) :
    exec i s = .next (s.raise (.outOfBoundsAccess .stack (zext9 s.sp)) (opcodeOf i.op)) := by
  rcases popOrRet with rfl | rfl
  · exact exec_pop_stack r s outside
  · exact exec_ret_stack s outside

/-! ### which faults a step can take -/

/-- Every fault a RUNNING step takes, with the opcode byte its record holds (60_exceptions.md R81 to R83): no step
raises UnsupportedOperation. -/
theorem step_faulted_cases {s t : State} (running : s.runState = .running) (stepped : step s = .next t)
    (faulted : t.runState = .faulted) :
    ∃ c op, t = s.ready.raise c op ∧
      ((c = .illegalInstruction ∧ op = s.mem.read s.pc.toNat) ∨
       (c = .outOfBoundsAccess .fetch s.pc ∧ op = 0#8 ∧ s.memSize ≤ s.pc.toNat) ∨
       (∃ kind info, kind ≠ .fetch ∧ c = .outOfBoundsAccess kind info ∧ op = s.mem.read s.pc.toNat)) := by
  have noReset : s.sample.pins.rst = false := by
    by_contra reset
    rw [step_reset s (by simpa using reset)] at stepped
    cases stepped
    cases faulted
  have readyRunning : s.ready.runState = .running := by simp [State.ready, running]
  rcases step_running_cases running noReset stepped with
    ⟨-, rfl⟩ | ⟨-, c, op, fetched, rfl⟩ | ⟨-, i, fetched, executed⟩
  · cases faulted
  · refine ⟨c, op, rfl, ?_⟩
    rcases s.fetch_error c op fetched with ⟨rfl, rfl, outside⟩ | ⟨-, rfl, rfl | ⟨info, rfl⟩⟩
    · exact .inr (.inl ⟨by simp, rfl, outside⟩)
    · exact .inl ⟨rfl, rfl⟩
    · exact .inr (.inr ⟨.operand, info, nofun, rfl, rfl⟩)
  · rcases executed with ⟨kind, info, late, rfl⟩ | ⟨-, -, -, rfl⟩ | ⟨u, effect, rfl⟩
    · have notFetch : kind ≠ .fetch := by rintro rfl; cases late
      exact ⟨_, _, rfl, .inr (.inr ⟨kind, info, notFetch, rfl, s.fetch_ok_opcode i fetched⟩)⟩
    · simp [readyRunning] at faulted
    · have retired : u.runState = .faulted := faulted
      rw [effect.runState, readyRunning] at retired
      split at retired <;> cases retired

/-- The kinds other than FETCH have the codes 1 to 4 (60_exceptions.md R81). -/
theorem AccessKind.code_of_ne_fetch (kind : AccessKind) (notFetch : kind ≠ .fetch) :
    1 ≤ kind.code.toNat ∧ kind.code.toNat ≤ 4 := by
  cases kind with
  | fetch => exact absurd rfl notFetch
  | _ => decide

/-- Settles O21: the state is the one `State.raise` answers, and the cause is one that a step can take. -/
theorem faultEntryWritesOnlyTheRecord : Obligations.FaultEntryWritesOnlyTheRecord := by
  intro s t running stepped faulted
  have pc : s.ready.pc = s.pc := s.ready_pc (by simp [running])
  obtain ⟨c, op, rfl, cause⟩ := step_faulted_cases running stepped faulted
  rcases cause with ⟨rfl, rfl⟩ | ⟨rfl, rfl, outside⟩ | ⟨kind, info, notFetch, rfl, rfl⟩
  · exact ⟨1#2, 0#3, _, 0#9, rfl, pc, pc, .inl ⟨rfl, rfl, rfl, rfl⟩⟩
  · exact ⟨2#2, 0#3, 0#8, s.pc, rfl, pc, pc, .inr (.inl ⟨rfl, rfl, rfl, rfl, outside⟩)⟩
  · obtain ⟨one_le, le_four⟩ := kind.code_of_ne_fetch notFetch
    exact ⟨2#2, kind.code, _, info, rfl, pc, pc, .inr (.inr ⟨rfl, one_le, le_four, rfl⟩)⟩

/-- The ALU select that raises UnsupportedOperation is driven by no instruction (60_exceptions.md R84). -/
theorem step_fault_code_ne_unsupported {s t : State} (running : s.runState = .running) (stepped : step s = .next t)
    (faulted : t.runState = .faulted) : t.fault.code ≠ 3#2 := by
  obtain ⟨c, op, rfl, cause⟩ := step_faulted_cases running stepped faulted
  rcases cause with ⟨rfl, -⟩ | ⟨rfl, -⟩ | ⟨kind, info, -, rfl, -⟩ <;> simp [FaultCause.record]

/-- Settles O22: fetch raises the conditions up to OPERAND, in its order, and the instruction's own equations give the
rest, in the state the edge hands it. -/
theorem firstFaultInTheOrderOfTheCycle : Obligations.FirstFaultInTheOrderOfTheCycle := by
  intro s running noReset
  have notIdle : s.runState ≠ .idle := by simp [running]
  have memSize := s.ready_memSize notIdle
  have pc := s.ready_pc notIdle
  have sp := s.ready_sp notIdle
  have pushAddr := s.ready_pushAddr notIdle
  refine ⟨step_limit s noReset running, fun below outside => ?fetch, fun below inside => ⟨fun illegal => ?illegal,
    fun o matched => ⟨fun needed outside => ?operand1, fun two inside1 outside => ?operand2⟩⟩,
    fun below i fetched => ⟨fun pre b post split valid bad => ?register, ?retaddr, ?callStack, ?pushStack,
      fun r popOrRet outside => ?popStack⟩,
    fun t => step_fault_code_ne_unsupported running⟩
  case fetch => exact step_fetch_error s noReset running below _ _ (s.fetch_of_pc_outside outside)
  case illegal => exact step_fetch_error s noReset running below _ _ (s.fetch_of_illegal inside illegal)
  case operand1 =>
    exact step_fetch_error s noReset running below _ _ (s.fetch_of_operand_outside o 0 matched needed inside outside)
  case operand2 =>
    exact step_fetch_error s noReset running below _ _
      (s.fetch_of_operand_outside o 1 matched (by omega) inside1 outside)
  case register =>
    exact step_of_exec_raise (kind := .register) running noReset below fetched
      (exec_first_bad_register i s.ready pre b post split valid bad)
  case retaddr =>
    rintro r rfl past
    rw [← pc] at past
    have raises := exec_call_retaddr r s.ready past
    rw [pc] at raises
    exact step_of_exec_raise running noReset below fetched raises
  case callStack =>
    rintro r rfl fits outside
    rw [← pc] at fits
    rw [← memSize, ← pushAddr] at outside
    rw [← pushAddr]
    exact step_of_exec_raise running noReset below fetched (exec_call_stack r s.ready fits outside)
  case pushStack =>
    rintro r rfl outside
    rw [← memSize, ← pushAddr] at outside
    rw [← pushAddr]
    exact step_of_exec_raise running noReset below fetched (exec_push_stack r s.ready outside)
  case popStack =>
    rw [← memSize, ← sp] at outside
    rw [← sp]
    exact step_of_exec_raise running noReset below fetched (exec_pop_or_ret_stack s.ready popOrRet outside)

end Sys2Proof.Machine
end

section
/-! PROOFS. An edge with `rst` = 1 (70_reset_and_hazards.md R98). -/

namespace Sys2Proof.Machine

/-- Whatever the host's levels, the reset edge leaves the reset table (10_state.md R22). -/
theorem State.resetEdge_hasResetValues (s : State) : s.resetEdge.HasResetValues :=
  State.resetWith_hasResetValues s.params

/-- Settles O2: reset is the edge's first test, and the state it answers is the reset state with the host's levels
kept. -/
theorem resetEdgeResetsEveryState : Obligations.ResetEdgeResetsEveryState := by
  intro s reset
  exact ⟨s.sample.resetEdge, step_reset s reset, s.sample.resetEdge_hasResetValues, s.sample_params, rfl⟩

end Sys2Proof.Machine
end

section
/-! PROOFS. What the host's side of an edge can change outside IDLE (70_reset_and_hazards.md R99, R100): the core's
operations commute with exchanging the host's levels and `ld_err`, as long as `out_ready` stays. -/

namespace Sys2Proof.Machine

/-! ### exchanging the host's side -/

/-- `s` with another host: the levels at this edge, the levels to come, and `ld_err`, which only the load port sets. -/
def State.withHost (s : State) (p : Pins) (ins : List Pins) (err : Bool) : State :=
  { s with pins := p, inputs := ins, ldErr := err }

/-- An outcome with its next state, if it has one, exchanged. -/
def mapNext (f : State → State) : Result → Result
  | .next t => .next (f t)
  | .fault c => .fault c
  | .refused c => .refused c

@[simp] theorem mapNext_next (f : State → State) (t : State) : mapNext f (.next t) = .next (f t) := rfl

/-- The handler neither reads nor writes the host's side. -/
def HostBlind (handler : State → Except FaultCause State) : Prop :=
  ∀ (s : State) (p : Pins) (ins : List Pins) (err : Bool),
    handler (s.withHost p ins err) = (handler s).map (·.withHost p ins err)

/-! ### the handlers -/

/-- The load that POP and RET begin with. -/
theorem State.memRead_sp_withHost (s : State) (p : Pins) (ins : List Pins) (err : Bool) :
    (s.withHost p ins err).memRead .stack (s.withHost p ins err).sp.toNat = s.memRead .stack s.sp.toNat := rfl

/-- A store and what follows it without a fault: the same fault, or the same state with the host exchanged. -/
theorem State.memWrite_bind_withHost (s : State) (p : Pins) (ins : List Pins) (err : Bool) (kind : AccessKind) (a : Nat)
    (v : Byte) {finish finish' : State → State}
    (finished : ∀ t, finish' (t.withHost p ins err) = (finish t).withHost p ins err) :
    ((s.withHost p ins err).memWrite kind a v >>= fun t => pure (finish' t)) =
      (s.memWrite kind a v >>= fun t => pure (finish t)).map (·.withHost p ins err) := by
  rcases Nat.lt_or_ge a s.memSize with inside | outside
  · rw [State.memWrite_ok s kind a v inside, State.memWrite_ok (s.withHost p ins err) kind a v inside]
    exact congrArg Except.ok (finished (s.setMem (s.mem.write a v)))
  · rw [State.memWrite_error s kind a v outside, State.memWrite_error (s.withHost p ins err) kind a v outside]
    rfl

/-- A handler that first decodes its register operand is as blind as what it goes on to do. -/
theorem HostBlind.regIndex_bind (r : Byte) {rest : RegIx → State → Except FaultCause State}
    (blind : ∀ i, HostBlind (rest i)) : HostBlind (fun s => regIndex r >>= (rest · s)) := by
  intro s p ins err
  cases regIndex r with
  | error c => rfl
  | ok i => exact blind i s p ins err

theorem aluHandler_hostBlind (sel : BitVec 2) (rA rB : Byte) : HostBlind (aluHandler sel rA rB) := by
  refine .regIndex_bind rA fun iA => .regIndex_bind rB fun iB s p ins err => ?_
  have sameOut : alu sel ((s.withHost p ins err).reg iA) ((s.withHost p ins err).reg iB) =
    alu sel (s.reg iA) (s.reg iB) := rfl
  rw [sameOut]
  rcases alu sel (s.reg iA) (s.reg iB) with c | (v | f) <;> rfl

theorem jumpHandler_hostBlind (j : Jump) (r : Byte) : HostBlind (jumpHandler j r) :=
  .regIndex_bind r fun _ _ _ _ _ => rfl

theorem ldiHandler_hostBlind (r imm : Byte) : HostBlind (ldiHandler r imm) :=
  .regIndex_bind r fun _ _ _ _ _ => rfl

theorem prnHandler_hostBlind (r : Byte) : HostBlind (prnHandler r) :=
  .regIndex_bind r fun _ _ _ _ _ => rfl

theorem pushHandler_hostBlind (r : Byte) : HostBlind (pushHandler r) :=
  .regIndex_bind r fun _ s p ins err => (s.setSp s.pushAddr).memWrite_bind_withHost p ins err _ _ _ fun _ => rfl

theorem popHandler_hostBlind (r : Byte) : HostBlind (popHandler r) := by
  refine .regIndex_bind r fun i s p ins err => ?_
  rw [State.memRead_sp_withHost]
  cases s.memRead .stack s.sp.toNat <;> rfl

theorem callHandler_hostBlind (r : Byte) : HostBlind (callHandler r) := by
  refine .regIndex_bind r fun i s p ins err => ?_
  by_cases past : 255 < s.returnAddr
  · have past' : 255 < (s.withHost p ins err).returnAddr := past
    rw [if_pos past, if_pos past']
    rfl
  · have past' : ¬ 255 < (s.withHost p ins err).returnAddr := past
    rw [if_neg past, if_neg past']
    exact (s.setSp s.pushAddr).memWrite_bind_withHost p ins err _ _ _ fun _ => rfl

theorem retHandler_hostBlind : HostBlind retHandler := by
  intro s p ins err
  rw [retHandler, retHandler, State.memRead_sp_withHost]
  cases s.memRead .stack s.sp.toNat <;> rfl

/-! ### the instructions and the step -/

/-- Commit keeps a handler's blindness: the same fault, or the same retired state. -/
theorem complete_withHost {handler : State → Except FaultCause State} (blind : HostBlind handler) (o : Op) (s : State)
    (p : Pins) (ins : List Pins) (err : Bool) :
    complete o (s.withHost p ins err) (handler (s.withHost p ins err)) =
      mapNext (·.withHost p ins err) (complete o s (handler s)) := by
  rw [blind]
  cases handler s <;> rfl

section
variable (s : State) (p : Pins) (ins : List Pins) (err : Bool) (acceptance : p.outReady = s.pins.outReady)
include acceptance

/-- PRN reads `out_ready`, and nothing else of the host's side (42_system_data.md R70). -/
theorem execPrn_withHost (r : Byte) :
    execPrn r (s.withHost p ins err) = mapNext (·.withHost p ins err) (execPrn r s) := by
  have sameAcceptance : (s.withHost p ins err).pins.outReady = s.pins.outReady := acceptance
  rw [execPrn, execPrn, prnHandler_hostBlind r, sameAcceptance]
  cases prnHandler r s with
  | error c => rfl
  | ok t => cases s.pins.outReady <;> rfl

/-- An instruction sees nothing of the host's side but `out_ready`. -/
theorem exec_withHost (i : Instr) :
    exec i (s.withHost p ins err) = mapNext (·.withHost p ins err) (exec i s) := by
  cases i with
  | hlt => rfl
  | ldi r imm => exact complete_withHost (ldiHandler_hostBlind r imm) .ldi s p ins err
  | prn r => exact execPrn_withHost s p ins err acceptance r
  | mul rA rB => exact complete_withHost (aluHandler_hostBlind _ rA rB) .mul s p ins err
  | add rA rB => exact complete_withHost (aluHandler_hostBlind _ rA rB) .add s p ins err
  | push r => exact complete_withHost (pushHandler_hostBlind r) .push s p ins err
  | pop r => exact complete_withHost (popHandler_hostBlind r) .pop s p ins err
  | call r => exact complete_withHost (callHandler_hostBlind r) .call s p ins err
  | ret => exact complete_withHost retHandler_hostBlind .ret s p ins err
  | cmp rA rB => exact complete_withHost (aluHandler_hostBlind _ rA rB) .cmp s p ins err
  | jeq r => exact complete_withHost (jumpHandler_hostBlind .ifEqual r) .jeq s p ins err
  | jne r => exact complete_withHost (jumpHandler_hostBlind .ifNotEqual r) .jne s p ins err
  | jmp r => exact complete_withHost (jumpHandler_hostBlind .always r) .jmp s p ins err

theorem State.cycle_withHost : (s.withHost p ins err).cycle = mapNext (·.withHost p ins err) s.cycle := by
  have sameLimit : (s.withHost p ins err).limitReached = s.limitReached := State.limitReached_congr _ _ rfl rfl
  have sameFetch : (s.withHost p ins err).fetch = s.fetch := State.fetch_congr _ _ rfl rfl rfl
  rw [State.cycle, State.cycle, sameLimit, sameFetch]
  cases s.limitReached with
  | true => rfl
  | false =>
    cases s.fetch with
    | error fault => rfl
    | ok i => exact exec_withHost s p ins err acceptance i

/-- Once the load port has been served, a core that is not IDLE sees nothing of the host's side but `out_ready`. -/
theorem State.advance_withHost (notIdle : s.runState ≠ .idle) :
    (s.withHost p ins err).advance = mapNext (·.withHost p ins err) s.advance := by
  have sameRun : (s.withHost p ins err).runState = s.runState := rfl
  rw [State.advance, State.advance, sameRun]
  cases run : s.runState with
  | idle => exact absurd run notIdle
  | running => exact s.cycle_withHost p ins err acceptance
  | halted | faulted | stopped => rfl

end

/-- The levels of a host that only offers `out_ready`. -/
def Pins.offering (outReady : Bool) : Pins := { Pins.quiet with outReady := outReady }

/-- Outside IDLE the host's side takes part in an edge without reset only by `out_ready` and by a dropped load: every
host with one level of `out_ready` gets the same next state, with its own levels and its own dropped load recorded. -/
theorem State.edge_withHost_not_idle (s : State) (notIdle : s.runState ≠ .idle) (outReady : Bool) :
    ∃ u : State, ∀ (p : Pins) (ins : List Pins), p.rst = false → p.outReady = outReady →
      (s.withHost p ins s.ldErr).edge = .next (u.withHost p ins (s.ldErr || p.ldWe)) := by
  obtain ⟨u, stepped⟩ := step_eq_next (s.withHost (.offering outReady) [] s.ldErr)
  have advanced : (s.withHost (.offering outReady) [] s.ldErr).advance = .next u := stepped
  refine ⟨u, fun p ins noReset acceptance => ?_⟩
  have served : (s.withHost p ins s.ldErr).loadPort = s.withHost p ins (s.ldErr || p.ldWe) :=
    State.loadPort_not_idle _ notIdle
  have exchanged : (s.withHost p ins (s.ldErr || p.ldWe)).advance =
      mapNext (·.withHost p ins (s.ldErr || p.ldWe)) (s.withHost (.offering outReady) [] s.ldErr).advance :=
    (s.withHost (.offering outReady) [] s.ldErr).advance_withHost p ins (s.ldErr || p.ldWe) acceptance notIdle
  calc (s.withHost p ins s.ldErr).edge
      = (s.withHost p ins s.ldErr).loadPort.advance := if_neg (ne_true_of_eq_false noReset)
    _ = .next (u.withHost p ins (s.ldErr || p.ldWe)) := by rw [served, exchanged, advanced, mapNext_next]

/-! ### the level of `start` (70_reset_and_hazards.md R100) -/

@[simp] theorem State.loadPort_pc (s : State) : s.loadPort.pc = s.pc := by
  unfold State.loadPort; split <;> [split; skip] <;> rfl

/-- Outside IDLE, two edges that differ in the level of `start` answer states that differ in that level: both reset, or
both are the edge of one host with another. -/
theorem step_start_not_idle (s : State) (notIdle : s.runState ≠ .idle) (p : Pins) (b c : Bool) :
    ∃ u, step { s with pins := { p with start := b }, inputs := [] } = .next u ∧
      step { s with pins := { p with start := c }, inputs := [] } =
        .next { u with pins := { p with start := c } } := by
  rcases Bool.eq_false_or_eq_true p.rst with reset | noReset
  · exact ⟨_, step_reset _ reset, step_reset _ reset⟩
  · obtain ⟨u, edge⟩ := s.edge_withHost_not_idle notIdle p.outReady
    exact ⟨_, edge { p with start := b } [] noReset rfl, edge { p with start := c } [] noReset rfl⟩

/-- Settles O6: in IDLE by the start edge, whose pc the invariant has at 0; elsewhere by exchanging the host. -/
theorem startRunsOnlyFromIdle : Obligations.StartRunsOnlyFromIdle := by
  intro s
  refine ⟨fun idle noReset start => ⟨{ s.ready with runState := .running }, ?_, rfl, fun inv => ?_⟩,
    fun notIdle b => step_start_not_idle s notIdle s.sample.pins b (!b)⟩
  · rw [step_idle s noReset idle, State.startEdge_ready s idle, start]
    rfl
  · obtain ⟨-, pcZero, -⟩ := inv.idle idle
    have kept : s.ready.pc = s.pc := by simp [State.ready]
    exact kept.trans pcZero

end Sys2Proof.Machine
end

section
/-! PROOFS. Decoding and encoding agree (30_encoding.md R39, R43, R46), and every byte that is no opcode is rejected by
name (R42, R45). -/

namespace Sys2Proof

open Machine

/-! ### the shape of an encoding -/

/-- What an opcode starts is encoded as the opcode byte and the operands it still needs, in order (30_encoding.md
R39). -/
theorem Op.form_encodes (o : Op) :
    (∃ i, o.form = .whole i ∧ o.operandCount = 0 ∧ encode i = [opcodeOf o]) ∨
    (∃ k, o.form = .needs1 k ∧ o.operandCount = 1 ∧ ∀ b, encode (k b) = [opcodeOf o, b]) ∨
    (∃ k, o.form = .needs2 k ∧ o.operandCount = 2 ∧ ∀ b1 b2, encode (k b1 b2) = [opcodeOf o, b1, b2]) := by
  cases o with
  | hlt | ret => exact .inl ⟨_, rfl, rfl, rfl⟩
  | prn | push | pop | call | jeq | jne | jmp => exact .inr (.inl ⟨_, rfl, rfl, fun _ => rfl⟩)
  | ldi | mul | add | cmp => exact .inr (.inr ⟨_, rfl, rfl, fun _ _ => rfl⟩)

/-- Every instruction decodes from its own encoding, whatever follows. -/
theorem decode_encode_append (i : Instr) (rest : List Byte) : decode (encode i ++ rest) = .ok (i, rest) := by
  cases i with
  | hlt | ret => exact decode_whole _ _ _ rest (opOfByte_opcodeOf _) rfl
  | prn r | push r | pop r | call r | jeq r | jne r | jmp r =>
    exact decode_needs1 _ r _ _ rest (opOfByte_opcodeOf _) rfl
  | ldi r imm => exact decode_ldi r imm rest
  | mul rA rB | add rA rB | cmp rA rB => exact decode_needs2 _ rA rB _ _ rest (opOfByte_opcodeOf _) rfl

/-! ### the two ends of a decoding -/

/-- A matched opcode decodes where its operand bytes follow: to an instruction whose encoding was there. -/
theorem decode_of_operands {op : Byte} {o : Op} {rest : List Byte} (matched : opOfByte op = some o)
    (enough : o.operandCount ≤ rest.length) :
    ∃ i rest', decode (op :: rest) = .ok (i, rest') ∧ op :: rest = encode i ++ rest' := by
  obtain rfl := opcodeOf_of_opOfByte op o matched
  rcases o.form_encodes with ⟨i, form, -, encoded⟩ | ⟨k, form, count, encoded⟩ | ⟨k, form, count, encoded⟩
  · exact ⟨i, rest, decode_whole _ o i rest matched form, by simp [encoded]⟩
  · match rest, enough with
    | b :: rest, _ => exact ⟨k b, rest, decode_needs1 _ b o k rest matched form, by simp [encoded]⟩
    | [], enough => simp [count] at enough
  · match rest, enough with
    | b1 :: b2 :: rest, _ => exact ⟨k b1 b2, rest, decode_needs2 _ b1 b2 o k rest matched form, by simp [encoded]⟩
    | [_], enough => simp [count] at enough
    | [], enough => simp [count] at enough

/-- A matched opcode whose operand bytes run out: the first missing one is named (40_engine.md R54). -/
theorem decode_of_missing_operand {op : Byte} {o : Op} {rest : List Byte} (matched : opOfByte op = some o)
    (short : rest.length < o.operandCount) :
    decode (op :: rest) = .error (.missingOperand op (rest.length + 1)) := by
  rcases o.form_encodes with ⟨i, form, count, -⟩ | ⟨k, form, count, -⟩ | ⟨k, form, count, -⟩
  · simp [count] at short
  · match rest, short with
    | [], _ => simp [decode, matched, form]
    | _ :: _, short => simp [count] at short
  · match rest, short with
    | [], _ => simp [decode, matched, form]
    | [_], _ => simp [decode, matched, form]
    | _ :: _ :: rest, short =>
      simp only [count, List.length_cons] at short
      omega

/-- What decodes is the encoding of the instruction, then the rest. -/
theorem eq_encode_append_of_decode {bs : List Byte} {i : Instr} {rest : List Byte}
    (decoded : decode bs = .ok (i, rest)) : bs = encode i ++ rest := by
  obtain ⟨op, o, tail, rfl, matched⟩ := decode_ok_cons bs i rest decoded
  rcases Nat.lt_or_ge tail.length o.operandCount with short | enough
  · simp [decode_of_missing_operand matched short] at decoded
  · obtain ⟨j, rest', decoded', split⟩ := decode_of_operands matched enough
    obtain ⟨rfl, rfl⟩ : j = i ∧ rest' = rest := by simpa [decoded'] using decoded
    exact split

/-- Settles O41: an encoding decodes by its format, and a decoding took exactly the bytes of one. -/
theorem decodeAndEncodeAgree : Obligations.DecodeAndEncodeAgree := by
  intro bs i rest
  refine ⟨eq_encode_append_of_decode, ?_⟩
  rintro rfl
  exact decode_encode_append i rest

/-! ### which bytes are opcodes -/

theorem mem_opTable (o : Op) : o ∈ opTable := by cases o <;> decide

/-- A byte is no opcode exactly when no instruction has it. -/
theorem opOfByte_eq_none_iff (op : Byte) : opOfByte op = none ↔ ∀ o, opcodeOf o ≠ op := by
  simp [opOfByte, List.find?_eq_none, mem_opTable]

theorem decode_eq_illegalOpcode_iff (op : Byte) (rest : List Byte) :
    decode (op :: rest) = .error (.illegalOpcode op) ↔ opOfByte op = none := by
  refine ⟨fun rejected => ?_, decode_illegal op rest⟩
  by_contra known
  obtain ⟨o, matched⟩ := Option.ne_none_iff_exists'.mp known
  rcases Nat.lt_or_ge rest.length o.operandCount with short | enough
  · simp [decode_of_missing_operand matched short] at rejected
  · obtain ⟨i, rest', decoded, -⟩ := decode_of_operands matched enough
    simp [decoded] at rejected

/-- The opcode bytes in table order (30_encoding.md R42). -/
def opcodeBytes : List Nat := [0x01, 0x82, 0x47, 0xA2, 0xA0, 0x45, 0x46, 0x50, 0x11, 0xA7, 0x55, 0x56, 0x54]

theorem opcodeBytes_eq_map : opcodeBytes = opTable.map fun o => (opcodeOf o).toNat := by decide

theorem toNat_mem_opcodeBytes_iff (op : Byte) : op.toNat ∈ opcodeBytes ↔ ∃ o, opcodeOf o = op := by
  simp [opcodeBytes_eq_map, mem_opTable, BitVec.toNat_inj]

/-- Settles O42: the table has the 13 bytes of R42, and a matched opcode decodes or misses an operand by the number of
bytes after it. -/
theorem everyOtherOpcodeIsIllegal : Obligations.EveryOtherOpcodeIsIllegal := by
  intro op rest
  refine ⟨?illegal, fun o matched => ⟨⟨?enough, fun enough => ?decodes⟩, decode_of_missing_operand matched⟩⟩
  case illegal =>
    rw [decode_eq_illegalOpcode_iff, opOfByte_eq_none_iff]
    change _ ↔ op.toNat ∉ opcodeBytes
    simp [toNat_mem_opcodeBytes_iff]
  case enough =>
    rintro ⟨i, rest', decoded⟩
    by_contra short
    simp [decode_of_missing_operand matched (Nat.lt_of_not_le short)] at decoded
  case decodes =>
    obtain ⟨i, rest', decoded, -⟩ := decode_of_operands matched enough
    exact ⟨i, rest', decoded⟩

/-! ### the opcode table, byte by byte -/

/-- Settles O43: each row's word is its instruction's encoding. -/
theorem writtenWordsDecode : Obligations.WrittenWordsDecode :=
  ⟨decode_encode_append .hlt [], decode_encode_append (.ldi 3#8 255#8) [], decode_encode_append (.prn 7#8) [],
    decode_encode_append (.mul 0#8 1#8) [], decode_encode_append (.add 1#8 2#8) [],
    decode_encode_append (.push 2#8) [], decode_encode_append (.pop 3#8) [], decode_encode_append (.call 1#8) [],
    decode_encode_append .ret [], decode_encode_append (.cmp 4#8 5#8) [], decode_encode_append (.jeq 5#8) [],
    decode_encode_append (.jne 6#8) [], decode_encode_append (.jmp 0#8) []⟩

/-- Settles O44: a fact about the 13 bytes of the table, row by row. -/
theorem opcodeBitsMatchTheReferenceLayout : Obligations.OpcodeBitsMatchTheReferenceLayout := by
  intro o
  cases o <;> decide

end Sys2Proof
end

section
/-! PROOFS. The memory primitives (20_memory.md R24) and the canonical form of memory (10_state.md R16, log 13). -/

namespace Sys2Proof.Machine

/-- Settles O25: below `MEM_SIZE` by read after write, and outside memory both primitives name the address. -/
theorem memoryPrimitives : Obligations.MemoryPrimitives := by
  intro s kind a v
  refine ⟨fun inside => ⟨s.memRead_ok kind a inside, _, s.memWrite_ok kind a v inside, ?sameCell, ?otherCells, rfl⟩,
    fun outside => ⟨s.memRead_error kind a outside, s.memWrite_error kind a v outside⟩⟩
  case sameCell => simp [State.memRead_ok _ kind a, inside]
  case otherCells =>
    intro b other
    simp [other]

/-- The cells of a canonical memory are what it reads as: those that do not read 0, with what they read. -/
theorem Memory.mem_iff_read (m : Memory) (canonical : m.wf) (c : Host.Cell) :
    c ∈ m ↔ m.read c.1 = c.2 ∧ c.2 ≠ 0#8 := by
  refine ⟨fun listed => ⟨m.read_of_mem canonical c listed, canonical.2 c listed⟩, ?_⟩
  rintro ⟨reads, readsNonzero⟩
  obtain ⟨d, listed, sameAddr⟩ : ∃ d ∈ m, d.1 = c.1 := by
    by_contra unlisted
    push Not at unlisted
    exact readsNonzero (reads.symm.trans (m.read_eq_zero c.1 unlisted))
  have sameByte : d.2 = c.2 := by rw [← m.read_of_mem canonical d listed, sameAddr, reads]
  rwa [Prod.ext sameAddr sameByte] at listed

/-- Canonical memories that read alike list the same cells, and a list in rising order is determined by its members. -/
theorem Memory.eq_of_read_eq (m n : Memory) (canonicalM : m.wf) (canonicalN : n.wf)
    (alike : ∀ a, m.read a = n.read a) : m = n := by
  have antisymm : Std.Antisymm (fun c d : Host.Cell => c.1 < d.1) := ⟨fun _ _ lt gt => absurd gt (Nat.lt_asymm lt)⟩
  have irrefl : Std.Irrefl (fun c d : Host.Cell => c.1 < d.1) := ⟨fun _ => Nat.lt_irrefl _⟩
  refine canonicalM.1.eq_of_mem_iff canonicalN.1 fun c => ?_
  rw [m.mem_iff_read canonicalM, n.mem_iff_read canonicalN, alike]

/-- Settles O26: the cells are determined by the reads, and a write keeps the form. -/
theorem equalReadingMemoriesAreEqual : Obligations.EqualReadingMemoriesAreEqual := by
  intro m n canonicalM canonicalN alike
  exact ⟨m.eq_of_read_eq n canonicalM canonicalN alike, fun a v => m.write_wf a v canonicalM⟩

end Sys2Proof.Machine
end

section
/-! PROOFS. The ALU's instructions (41_alu.md R62 to R66). -/

namespace Sys2Proof.Machine

/-- Settles O24: no select is left for 11, and a fault discards the handler's writes. -/
theorem unsupportedAluSelectFaults : Obligations.UnsupportedAluSelectFaults := by
  intro o rA rB s
  have raises : aluHandler 3#2 (regByte rA) (regByte rB) s = .error .unsupportedOperation := by
    simp [aluHandler, alu, bind, Except.bind]
  rw [raises]
  rfl

/-- What an instruction that writes the byte `v` to register `r` and goes on to `pc + 3` does and leaves alone. -/
theorem setReg_seqPc2_frame (s : State) (r : RegIx) (v : Byte) :
    let t := ((s.setReg r v).setPc (s.seqPc 2)).retire
    t.reg r = v ∧ (∀ k, k ≠ r → t.reg k = s.reg k) ∧ t.flags = s.flags ∧ sameMem s t ∧ t.pc = s.pc + 3#9 ∧
      t.runState = s.runState ∧ sameOut s t ∧ retires s t := by
  refine ⟨by simp, fun k other => by simp [other], rfl, fun _ => rfl, rfl, rfl, ⟨rfl, rfl⟩,
    retires_retire rfl rfl ⟨rfl, rfl, rfl, rfl⟩⟩

/-- Settles O28: both store the low byte of the exact result. -/
theorem addAndMulWrapModulo256 : Obligations.AddAndMulWrapModulo256 := by
  intro rA rB s
  obtain ⟨sum, sumFrame⟩ := setReg_seqPc2_frame s rA (u8 ((s.reg rA).toNat + (s.reg rB).toNat))
  obtain ⟨product, productFrame⟩ := setReg_seqPc2_frame s rA (u8 ((s.reg rA).toNat * (s.reg rB).toNat))
  exact ⟨⟨_, exec_add rA rB s, by rw [sum, u8_toNat], sumFrame⟩,
    ⟨_, exec_mul rA rB s, by rw [product, u8_toNat], productFrame⟩⟩

/-- The comparison as three flags of their own (41_alu.md R66). -/
theorem compareFlags_eq (a b : Byte) :
    compareFlags a b =
      { l := decide (a.toNat < b.toNat), g := decide (b.toNat < a.toNat), e := decide (a = b) } := by
  unfold compareFlags
  rcases Nat.lt_trichotomy a.toNat b.toNat with less | equal | greater
  · have differ : a ≠ b := by rintro rfl; omega
    simp [less, Nat.lt_asymm less, differ]
  · obtain rfl := BitVec.eq_of_toNat_eq equal
    simp
  · have differ : a ≠ b := by rintro rfl; omega
    simp [greater, Nat.lt_asymm greater, differ]

/-- Settles O29: the flags are those of the comparison, and nothing else but the pc is written. -/
theorem cmpSetsExactlyOneFlag : Obligations.CmpSetsExactlyOneFlag := by
  intro rA rB s
  refine ⟨_, exec_cmp rA rB s, ?_, ?_, ?_, fun _ => rfl, fun _ => rfl, rfl, rfl, ⟨rfl, rfl⟩,
    retires_retire rfl rfl ⟨rfl, rfl, rfl, rfl⟩⟩
  all_goals simp [compareFlags_eq]

end Sys2Proof.Machine
end

section
/-! PROOFS. HLT, and PRN at one edge (42_system_data.md R68, R70). -/

namespace Sys2Proof.Machine

/-- Settles O30: the state `exec_hlt` answers differs in the run state and the pc. -/
theorem hltHalts : Obligations.HltHalts := by
  intro s
  exact ⟨_, exec_hlt s, rfl, rfl, fun _ => rfl, rfl, fun _ => rfl, ⟨rfl, rfl⟩,
    retires_retire rfl rfl ⟨rfl, rfl, rfl, rfl⟩⟩

/-- Settles O32: `out_ready` decides between the emission and the hold. -/
theorem prnEmitsOrHolds : Obligations.PrnEmitsOrHolds := by
  intro r s
  refine ⟨fun accepts => ⟨_, exec_prn_accepted r s accepts, rfl, rfl, fun _ => rfl, rfl, fun _ => rfl, rfl, rfl,
    retires_retire rfl rfl ⟨rfl, rfl, rfl, rfl⟩⟩, exec_prn_held r s⟩

end Sys2Proof.Machine
end

section
/-! PROOFS. The stack: PUSH and POP (43_stack.md R71 to R73), CALL and RET (44_subroutine.md R74, R75), and what each
pair restores. -/

namespace Sys2Proof.Machine

/-! ### the stack pointer -/

theorem State.pushAddr_toNat (s : State) : s.pushAddr.toNat = (s.sp.toNat + 255) % 256 := by
  simp only [State.pushAddr, BitVec.toNat_sub, BitVec.toNat_ofNat]
  omega

/-- A pop after a push brings SP back (43_stack.md R71). -/
@[simp] theorem State.pushAddr_add_one (s : State) : s.pushAddr + 1#8 = s.reg 7 := by
  simp [State.pushAddr]

/-! ### the four instructions -/

/-- Settles O34: the equations of PUSH in and outside memory. -/
theorem pushStoresBelowTheStackPointer : Obligations.PushStoresBelowTheStackPointer := by
  intro r s
  refine ⟨fun inside => ⟨_, exec_push r s inside, ?sp, fun k other => ?regs, ?cell, fun a other => ?cells, ?addr, rfl,
    rfl, rfl, ⟨rfl, rfl⟩, retires_retire rfl rfl ⟨rfl, rfl, rfl, rfl⟩⟩, exec_push_stack r s⟩
  case sp => simpa using s.pushAddr_toNat
  case regs => simp [other]
  case cell => simp
  case cells => simp [other]
  case addr => simp

/-- Settles O35: the equations of POP in and outside memory; R7 takes the byte before SP is incremented. -/
theorem popLoadsFromTheStackPointer : Obligations.PopLoadsFromTheStackPointer := by
  intro r s
  refine ⟨fun inside => ⟨_, exec_pop r s inside, fun general => ?general, fun isSp => ?isSp,
    fun k other notSp => ?regs, fun _ => rfl, rfl, rfl, rfl, ⟨rfl, rfl⟩, retires_retire rfl rfl ⟨rfl, rfl, rfl, rfl⟩⟩,
    exec_pop_stack r s⟩
  case general => simp [general]
  case isSp => simp [isSp]
  case regs => simp [other, notSp]

/-- Settles O36: the three equations of CALL, the return address checked first. -/
theorem callPushesTheReturnAddress : Obligations.CallPushesTheReturnAddress := by
  intro r s
  refine ⟨fun fits inside => ⟨_, exec_call r s fits inside, ?sp, fun k other => ?regs, ?cell, fun a other => ?cells,
    ?addr, ?target, rfl, rfl, ⟨rfl, rfl⟩, retires_retire rfl rfl ⟨rfl, rfl, rfl, rfl⟩⟩, exec_call_retaddr r s,
    exec_call_stack r s⟩
  case sp => simpa using s.pushAddr_toNat
  case regs => simp [other]
  case cell =>
    have fitsByte : s.pc.toNat + 2 < 256 := by omega
    simpa using fitsByte
  case cells => simp [other]
  case addr => simp
  case target => simp

/-- Settles O37: RET's encoding, and its equations in and outside memory. -/
theorem retReturnsToTheByteOnTheStack : Obligations.RetReturnsToTheByteOnTheStack := by
  refine ⟨rfl, rfl, fun rest => decode_whole 0x11#8 .ret .ret rest rfl rfl, fun s => ⟨fun inside => ⟨_,
    exec_ret s inside, ?target, ?sp, fun k other => ?regs, fun _ => rfl, rfl, rfl, ⟨rfl, rfl⟩,
    retires_retire rfl rfl ⟨rfl, rfl, rfl, rfl⟩⟩, exec_ret_stack s⟩⟩
  case target => simp
  case sp => simp
  case regs => simp [other]

/-! ### what a pair of them restores -/

/-- Settles O39: POP reads back the byte PUSH stored, the decremented SP for R7. -/
theorem pushThenPopRestoresRegisters : Obligations.PushThenPopRestoresRegisters := by
  intro r s inside
  refine ⟨_, _, exec_push r s inside, exec_pop r _ (by simpa using inside), regs_ext _ _ fun k => ?regs, ?pc⟩
  case regs =>
    change State.reg _ k = s.reg k
    by_cases isSp : k = 7
    · subst isSp
      by_cases storesSp : r = 7 <;> simp [storesSp]
    · by_cases popped : k = r
      · subst popped
        simp [isSp]
      · simp [isSp, popped]
  case pc =>
    simp [State.seqPc, BitVec.add_assoc]

/-- Settles O40: RET takes the return address from the cell CALL wrote, and SP back up. -/
theorem retUndoesCall : Obligations.RetUndoesCall := by
  intro r s fits inside
  refine ⟨_, exec_call r s fits inside, fun u sameSp sameCell sameParams => ?_⟩
  have sp : u.reg 7 = s.pushAddr := by simpa using sameSp
  have cell : u.mem.read s.pushAddr.toNat = u8 (s.pc.toNat + 2) := by simpa using sameCell
  have insideU : (u.reg 7).toNat < u.memSize := by
    rw [sp, State.memSize, sameParams]
    exact inside
  refine ⟨_, exec_ret u insideU, ?pc, ?sp⟩
  case pc =>
    have returned : (zext9 (u8 (s.pc.toNat + 2))).toNat = (s.pc + 2#9).toNat := by
      simp only [zext9_toNat, u8_toNat, BitVec.toNat_add, BitVec.toNat_ofNat]
      omega
    simpa [sp, cell] using BitVec.eq_of_toNat_eq returned
  case sp => simp [sp]

end Sys2Proof.Machine
end

section
/-! PROOFS. The output ports and the exit status (10_state.md R14, R18; 70_reset_and_hazards.md R97; 60_exceptions.md
R96). -/

namespace Sys2Proof.Machine

/-- `fl_o` holds one flag in each of its three low bits (10_state.md R14). -/
theorem State.flO_toNat (s : State) : s.flO.toNat = 4 * s.flags.l.toNat + 2 * s.flags.g.toNat + s.flags.e.toNat := by
  unfold State.flO
  obtain ⟨l, g, e⟩ := s.flags
  revert l g e
  decide

/-- Settles O45: flag by flag, run state by run state, and `obs_data` in and outside memory. -/
theorem outputPortsReportTheState : Obligations.OutputPortsReportTheState := by
  intro s
  refine ⟨s.flO_toNat, ⟨rfl, rfl, rfl, rfl, rfl, ?codes⟩, fun a => ⟨fun inside => if_pos inside,
    fun outside => if_neg (Nat.not_lt.mpr outside)⟩, ?exitZero, ?exitOne⟩
  case codes => cases s.runState <;> decide
  case exitZero => cases run : s.runState <;> simp [State.exitStatus, run]
  case exitOne => cases run : s.runState <;> simp [State.exitStatus, run]

end Sys2Proof.Machine
end

section
/-! PROOFS. The load port in IDLE, the host's exchange outside it (70_reset_and_hazards.md R99, R100), and the boot
(R101). -/

namespace Sys2Proof.Machine

/-! ### the load port in IDLE -/

@[simp] theorem State.sample_memSize (s : State) : s.sample.memSize = s.memSize := by
  rw [State.memSize, State.memSize, State.sample_params]

theorem State.ready_of_idle_load (s : State) (idle : s.runState = .idle) (load : s.sample.pins.ldWe = true)
    (inside : s.sample.pins.ldAddr.toNat < s.memSize) :
    s.ready = { s.sample with mem := s.mem.write s.sample.pins.ldAddr.toNat s.sample.pins.ldData } := by
  simp [State.ready, State.loadPort, State.setMem, load, idle, inside]

theorem State.ready_of_idle_load_outside (s : State) (load : s.sample.pins.ldWe = true)
    (outside : s.memSize ≤ s.sample.pins.ldAddr.toNat) : s.ready = { s.sample with ldErr := true } := by
  simp [State.ready, State.loadPort, load, Nat.not_lt.mpr outside]

/-- An edge of IDLE without reset: what the load port left, and RUNNING if `start` is 1. -/
theorem step_idle_eq (s : State) (idle : s.runState = .idle) (noReset : s.sample.pins.rst = false) :
    step s = .next { s.ready with runState := if s.sample.pins.start then .running else .idle } := by
  rw [step_idle s noReset idle, s.startEdge_ready idle]

/-- Settles O3: the state is the one the load port left, and its memory reads as after one write. -/
theorem idleLoadWritesOneCell : Obligations.IdleLoadWritesOneCell := by
  intro s idle noReset load inside
  have stepped := step_idle_eq s idle noReset
  rw [s.ready_of_idle_load idle load inside] at stepped
  exact ⟨_, stepped, by simp, fun a other => by simp [other], rfl⟩

/-- Settles O5: the state is the one the load port left. -/
theorem idleLoadOutOfMemoryIsDropped : Obligations.IdleLoadOutOfMemoryIsDropped := by
  intro s idle noReset load outside
  rw [step_idle_eq s idle noReset, s.ready_of_idle_load_outside load outside]

/-! ### the host outside IDLE -/

/-- Sampling exchanges the host's levels. -/
theorem State.sample_eq_withHost (s : State) : s.sample = s.withHost s.sample.pins s.sample.inputs s.ldErr := by
  unfold State.sample
  split <;> rfl

/-- Settles O4: both edges are the edge of one state under two hosts that agree on `out_ready`. -/
theorem hostCannotDisturbOutsideIdle : Obligations.HostCannotDisturbOutsideIdle := by
  intro s notIdle noReset
  obtain ⟨u, edge⟩ := s.edge_withHost_not_idle notIdle s.sample.pins.outReady
  refine ⟨_, edge (.offering s.sample.pins.outReady) [] rfl rfl, ?_⟩
  rw [step, State.sample_eq_withHost, edge s.sample.pins s.sample.inputs noReset rfl]
  simp [State.withHost, Pins.offering, Pins.quiet]

/-! ### runs -/

theorem core_run_zero (s : State) : Sys2Proof.core.run 0 s = .next s := rfl

theorem core_run_succ {s t : State} (stepped : step s = .next t) (k : Nat) :
    Sys2Proof.core.run (k + 1) s = Sys2Proof.core.run k t := by
  have coreStepped : Sys2Proof.core.step s = .next t := stepped
  simp only [Host.Core.run, coreStepped]

/-- A run in two parts. -/
theorem core_run_add {j : Nat} {s t : State} (ran : Sys2Proof.core.run j s = .next t) (k : Nat) :
    Sys2Proof.core.run (j + k) s = Sys2Proof.core.run k t := by
  induction j generalizing s with
  | zero =>
    cases ran
    rw [Nat.zero_add]
  | succ j ih =>
    obtain ⟨u, stepped⟩ := step_eq_next s
    rw [core_run_succ stepped] at ran
    rw [Nat.succ_add, core_run_succ stepped, ih ran]

/-! ### the boot -/

/-- What a list of bytes written from `a` upward leaves each address reading. -/
theorem Memory.read_writeAll (bs : List Byte) (m : Memory) (a x : Nat) :
    (m.writeAll a bs).read x = if a ≤ x then bs[x - a]?.getD (m.read x) else m.read x := by
  induction bs generalizing m a with
  | nil => simp [Memory.writeAll]
  | cons b bs ih =>
    rw [Memory.writeAll, ih, Memory.read_write]
    rcases Nat.lt_trichotomy x a with below | rfl | above
    · simp [Nat.not_le.mpr below, show ¬ a + 1 ≤ x by omega, show x ≠ a by omega]
    · simp
    · obtain ⟨d, rfl⟩ : ∃ d, x = a + 1 + d := ⟨x - (a + 1), by omega⟩
      simp [show a + 1 + d - a = d + 1 by omega, show a ≤ a + 1 + d by omega, show a + 1 + d ≠ a by omega]

theorem Memory.writeAll_wf (bs : List Byte) (m : Memory) (a : Nat) (canonical : m.wf) : (m.writeAll a bs).wf := by
  induction bs generalizing m a with
  | nil => exact canonical
  | cons b bs ih => exact ih (m.write a b) (a + 1) (m.write_wf a b canonical)

/-- The levels of one load write of the loader. -/
def loadPin (a : Nat) (b : Byte) : Pins := { Pins.quiet with ldWe := true, ldAddr := u8 a, ldData := b }

theorem loadPins_cons (a : Nat) (b : Byte) (bs : List Byte) : 
    loadPins a (b :: bs) = loadPin a b :: loadPins (a + 1) bs := rfl

/-- One load write of the loader, in IDLE. -/
theorem step_loadPin {s : State} {a : Nat} {b : Byte} {rest : List Pins} (idle : s.runState = .idle)
    (levels : s.inputs = loadPin a b :: rest) (inside : a < s.memSize) :
    step s = .next { s with mem := s.mem.write a b, pins := loadPin a b, inputs := rest } := by
  have sampled : s.sample = { s with pins := loadPin a b, inputs := rest } := s.sample_cons _ rest levels
  have addr : s.sample.pins.ldAddr.toNat = a := by
    have := s.memSize_le
    simp only [sampled, loadPin, u8_toNat]
    omega
  rw [step_idle_eq s idle (by rw [sampled]; rfl),
    s.ready_of_idle_load idle (by rw [sampled]; rfl) (by rwa [addr]), addr, sampled]
  simp [loadPin, Pins.quiet, idle]

/-- The loader's levels, one load write an edge, write the bytes from `a` upward into an IDLE core's memory and change
nothing else of the core. -/
theorem core_run_loadPins (bs : List Byte) (a : Nat) (rest : List Pins) (s : State) (idle : s.runState = .idle)
    (levels : s.inputs = loadPins a bs ++ rest) (fits : a + bs.length ≤ s.memSize) :
    ∃ p, Sys2Proof.core.run bs.length s =
      .next { s with mem := s.mem.writeAll a bs, pins := p, inputs := rest } := by
  induction bs generalizing a s with
  | nil =>
    obtain rfl : s.inputs = rest := levels
    exact ⟨s.pins, rfl⟩
  | cons b bs ih =>
    rw [List.length_cons] at fits ⊢
    have stepped := step_loadPin idle levels (by omega)
    obtain ⟨p, ran⟩ := ih (a + 1)
      { s with mem := s.mem.write a b, pins := loadPin a b, inputs := loadPins (a + 1) bs ++ rest } idle rfl
      (by change a + 1 + bs.length ≤ s.memSize; omega)
    exact ⟨p, (core_run_succ stepped _).trans ran⟩

theorem loadPins_length (a : Nat) (bs : List Byte) : (loadPins a bs).length = bs.length := by
  induction bs generalizing a with
  | nil => rfl
  | cons b bs ih => rw [loadPins_cons, List.length_cons, List.length_cons, ih]

/-- A list of words the loader accepts fits memory, and the levels are those of its boot. -/
theorem loader_eq_ok {n : Nat} {words : List Nat} {pins : List Pins} (accepted : loader n words = .ok pins) :
    words.length ≤ n ∧ pins = bootPins (words.map u8) := by
  unfold loader at accepted
  split at accepted
  · cases accepted
  next fits =>
    split at accepted
    · cases accepted
      exact ⟨Nat.le_of_not_lt fits, rfl⟩
    · cases accepted

/-- The state a boot of `program` leaves, with the levels `p` at its last edge. -/
def State.booted (params : Params) (program : List Byte) (p : Pins) : State :=
  { State.resetWith params with mem := Memory.writeAll [] 0 program, runState := .running, pins := p }

/-- The boot, from any state: reset, then the load writes, then start (70_reset_and_hazards.md R101). -/
theorem core_run_bootPins (s : State) (program : List Byte) (levels : s.inputs = bootPins program)
    (fits : program.length ≤ s.memSize) :
    ∃ p, Sys2Proof.core.run (bootPins program).length s = .next (State.booted s.params program p) := by
  have sampled : s.sample = { s with
      pins := { Pins.quiet with rst := true }
      inputs := loadPins 0 program ++ [{ Pins.quiet with start := true }] } := s.sample_cons _ _ levels
  have reset := step_reset s (by rw [sampled])
  have loads := core_run_loadPins program 0 [{ Pins.quiet with start := true }] s.sample.resetEdge rfl
    (by rw [sampled]; rfl) (by rw [sampled, Nat.zero_add]; exact fits)
  obtain ⟨p, loaded⟩ := loads
  have started := step_idle_eq { s.sample.resetEdge with
    mem := s.sample.resetEdge.mem.writeAll 0 program, pins := p, inputs := [{ Pins.quiet with start := true }] } rfl rfl
  refine ⟨{ Pins.quiet with start := true }, ?_⟩
  have length : (bootPins program).length = program.length + 1 + 1 := by
    simp [bootPins, loadPins_length]
  rw [length, core_run_succ reset, core_run_add loaded, core_run_succ started, core_run_zero, sampled]
  rfl

/-- Settles O7: the boot's memory reads as the bytes written from 0 into an empty one. -/
theorem bootLoadsTheProgramAndStarts : Obligations.BootLoadsTheProgramAndStarts := by
  intro s words pins accepted levels
  obtain ⟨fits, rfl⟩ := loader_eq_ok accepted
  obtain ⟨p, booted⟩ := core_run_bootPins s (words.map u8) levels (by simpa using fits)
  refine ⟨_, booted, rfl, rfl, fun a => ?_, rfl, Memory.writeAll_wf _ [] 0 Memory.nil_wf⟩
  have cells : (State.booted s.params (words.map u8) p).mem.read a = (words.map u8)[a]?.getD (u8 0) := by
    simp [State.booted, Memory.read_writeAll, u8]
  rw [cells, List.getElem?_map, Option.getD_map, List.getD_eq_getElem?_getD]

/-- Settles O8: the loader's two tests, in its order. -/
theorem loaderChecksBeforeItWrites : Obligations.LoaderChecksBeforeItWrites := by
  intro n words
  refine ⟨fun tooLarge => if_pos tooLarge, fun fits bad => ?_, fun fits valid => ?_⟩
  · have notAll : ¬ words.all (· ≤ 255) = true := by simpa using bad
    rw [loader, if_neg (Nat.not_lt.mpr fits), if_neg notAll]
  · have all : words.all (· ≤ 255) = true := by simpa using valid
    exact ⟨_, by rw [loader, if_neg (Nat.not_lt.mpr fits), if_pos all]⟩

end Sys2Proof.Machine
end

section
/-! PROOFS. A step runs what the bytes at `pc` decode to (40_engine.md R50), and the model's own way to place them
there (log 7). -/

namespace Sys2Proof.Machine

/-- Settles O11: the bytes decode to what fetch finds. -/
theorem stepRunsTheDecodedInstruction : Obligations.StepRunsTheDecodedInstruction := by
  intro s i rest running noReset below decoded
  exact step_exec s noReset running below i (s.fetch_of_decode i rest decoded)

theorem State.placeBytes_noReset (s : State) (bytes : List Byte) : (s.placeBytes bytes).sample.pins.rst = false := by
  cases levels : s.inputs with
  | nil => rw [State.sample_nil _ (by simp [State.placeBytes, levels])]; rfl
  | cons p rest => rw [State.sample_cons _ { p with rst := false } rest (by simp [State.placeBytes, levels])]

theorem State.placeBytes_limitReached (s : State) (bytes : List Byte) : (s.placeBytes bytes).limitReached = false := by
  cases reached : s.limitReached with
  | true =>
    have lifted : (s.placeBytes bytes).params.stepLimit = none := by simp [State.placeBytes, reached]
    rw [State.limitReached, lifted]
  | false =>
    rw [← reached]
    exact State.limitReached_congr _ _ rfl (by simp [State.placeBytes, reached])

/-- Three bytes fit where `placeBytes` puts them. -/
theorem State.placeBytes_fits (s : State) (bytes : List Byte) :
    (s.placeBytes bytes).pc.toNat + 3 ≤ (s.placeBytes bytes).memSize := by
  change (if s.pc.toNat + 3 ≤ s.memSize then s.pc else 0#9).toNat + 3 ≤ s.memSize
  split
  next fits => exact fits
  next =>
    rcases s.memSize_cases with size | size <;> simp [size]

/-- The three bytes at the pc are the placed ones. -/
theorem State.placeBytes_window (s : State) (b0 b1 b2 : Byte) :
    (s.placeBytes [b0, b1, b2]).window (s.placeBytes [b0, b1, b2]).pc.toNat = [b0, b1, b2] := by
  have fits := s.placeBytes_fits [b0, b1, b2]
  have mem : (s.placeBytes [b0, b1, b2]).mem =
    s.mem.writeAll (s.placeBytes [b0, b1, b2]).pc.toNat [b0, b1, b2] := rfl
  generalize s.placeBytes [b0, b1, b2] = placed at fits mem ⊢
  have inside0 : placed.pc.toNat < placed.memSize := by omega
  have inside1 : placed.pc.toNat + 1 < placed.memSize := by omega
  have inside2 : placed.pc.toNat + 2 < placed.memSize := by omega
  simp [State.window, inside0, inside1, inside2, mem, Memory.read_writeAll]

/-- Settles O12: the placed state is RUNNING below its limit, without reset, and its window is the word's bytes. -/
theorem placedWordRunsNext : Obligations.PlacedWordRunsNext := by
  intro s nbits w i decodes
  obtain ⟨rest, decoded⟩ : ∃ rest, decode (tableWordBytes nbits w) = .ok (i, rest) := by
    unfold decodeTableWord at decodes
    split at decodes
    next j rest decoded => cases decodes; exact ⟨rest, decoded⟩
    next => cases decodes
  have window : (s.withFetchWord nbits w).window (s.withFetchWord nbits w).pc.toNat = tableWordBytes nbits w :=
    s.placeBytes_window _ _ _
  exact stepRunsTheDecodedInstruction _ i rest rfl (s.placeBytes_noReset _) (s.placeBytes_limitReached _)
    (by rw [window, decoded])

end Sys2Proof.Machine
end

section
/-! PROOFS. What an edge hands to the core, and what a step without reset can change: the flags (10_state.md R13),
memory (20_memory.md R26) and the output trace (10_state.md R21). -/

namespace Sys2Proof.Machine

/-! ### what an edge hands to the core, in every run state -/

/-- Sampling and the load port write the host's levels, memory and `ld_err` only. -/
theorem State.ready_eq (s : State) : s.ready = { s.sample with mem := s.ready.mem, ldErr := s.ready.ldErr } := by
  unfold State.ready State.loadPort
  split <;> [split; skip] <;> rfl

@[simp] theorem State.ready_regs (s : State) : s.ready.regs = s.regs := by rw [s.ready_eq]; exact s.sample_regs
@[simp] theorem State.ready_pc_eq (s : State) : s.ready.pc = s.pc := by rw [s.ready_eq]; exact s.sample_pc
@[simp] theorem State.ready_flags (s : State) : s.ready.flags = s.flags := by rw [s.ready_eq]; exact s.sample_flags
@[simp] theorem State.ready_runState (s : State) : s.ready.runState = s.runState := by
  rw [s.ready_eq]; exact s.sample_runState
@[simp] theorem State.ready_fault (s : State) : s.ready.fault = s.fault := by rw [s.ready_eq]; exact s.sample_fault
@[simp] theorem State.ready_icount (s : State) : s.ready.icount = s.icount := by rw [s.ready_eq]; exact s.sample_icount
@[simp] theorem State.ready_outPending (s : State) : s.ready.outPending = s.outPending := by
  rw [s.ready_eq]; exact s.sample_outPending
@[simp] theorem State.ready_trace (s : State) : s.ready.trace = s.trace := by rw [s.ready_eq]; exact s.sample_trace
@[simp] theorem State.ready_params (s : State) : s.ready.params = s.params := by rw [s.ready_eq]; exact s.sample_params
@[simp] theorem State.ready_inputs (s : State) : s.ready.inputs = s.sample.inputs := by rw [s.ready_eq]
@[simp] theorem State.ready_reg (s : State) (k : RegIx) : s.ready.reg k = s.reg k := congrArg (·[k]) s.ready_regs

/-- The load port writes an existing cell in IDLE, and no other (70_reset_and_hazards.md R99). -/
theorem State.ready_mem_cases (s : State) :
    s.ready.mem = s.mem ∨
    (s.runState = .idle ∧ s.sample.pins.ldWe = true ∧ s.sample.pins.ldAddr.toNat < s.memSize ∧
      s.ready.mem = s.mem.write s.sample.pins.ldAddr.toNat s.sample.pins.ldData) := by
  by_cases load : s.runState = .idle ∧ s.sample.pins.ldWe = true ∧ s.sample.pins.ldAddr.toNat < s.memSize
  · obtain ⟨idle, we, inside⟩ := load
    exact .inr ⟨idle, we, inside, by rw [s.ready_of_idle_load idle we inside]⟩
  · refine .inl ?_
    unfold State.ready State.loadPort
    split
    next we =>
      have dropped : ¬ (s.sample.runState = .idle ∧ s.sample.pins.ldAddr.toNat < s.sample.memSize) := by
        simpa [we] using load
      rw [if_neg dropped]
      exact s.sample_mem
    next => exact s.sample_mem

theorem State.ready_mem_not_idle (s : State) (notIdle : s.runState ≠ .idle) : s.ready.mem = s.mem := by
  rcases s.ready_mem_cases with kept | ⟨idle, -⟩
  · exact kept
  · exact absurd idle notIdle

/-- A state whose sampled host asks for no load is handed on as sampled. -/
theorem State.ready_of_no_load (s : State) (noLoad : s.sample.pins.ldWe = false) : s.ready = s.sample := by
  simp [State.ready, State.loadPort, noLoad]

/-! ### steps without reset -/

/-- A step without reset starts the core, or retires an instruction, or leaves flags, memory and trace alone: it
stopped, faulted, held a PRN, or found a run that had ended. -/
theorem step_noReset_cases {s t : State} (noReset : s.sample.pins.rst = false) (stepped : step s = .next t) :
    (s.runState = .idle ∧ t = s.ready.startEdge) ∨
    (s.runState = .running ∧ s.limitReached = false ∧
      ∃ i u, s.fetch = .ok i ∧ Effect i s.ready u ∧ t = u.retire) ∨
    (t.flags = s.flags ∧ t.mem = s.mem ∧ t.trace = s.trace) := by
  by_cases idle : s.runState = .idle
  · rw [step_idle s noReset idle] at stepped
    cases stepped
    exact .inl ⟨idle, rfl⟩
  have unchanged : s.ready.flags = s.flags ∧ s.ready.mem = s.mem ∧ s.ready.trace = s.trace :=
    ⟨s.ready_flags, s.ready_mem_not_idle idle, s.ready_trace⟩
  by_cases running : s.runState = .running
  · rcases step_running_cases running noReset stepped with
      ⟨-, rfl⟩ | ⟨-, -, -, -, rfl⟩ | ⟨below, i, fetched, ⟨-, -, -, rfl⟩ | ⟨-, -, -, rfl⟩ | ⟨u, effect, rfl⟩⟩
    · exact .inr (.inr unchanged)
    · exact .inr (.inr unchanged)
    · exact .inr (.inr unchanged)
    · exact .inr (.inr unchanged)
    · exact .inr (.inl ⟨running, below, i, u, fetched, effect, rfl⟩)
  · rw [step_terminal s noReset idle running] at stepped
    cases stepped
    exact .inr (.inr unchanged)

/-- The start edge writes the run state only. -/
theorem State.startEdge_fields (s : State) :
    s.startEdge.flags = s.flags ∧ s.startEdge.mem = s.mem ∧ s.startEdge.trace = s.trace := by
  unfold State.startEdge
  split <;> exact ⟨rfl, rfl, rfl⟩

/-- Settles O17: of the retired effects only CMP's writes the flags. -/
theorem onlyCmpChangesTheFlags : Obligations.OnlyCmpChangesTheFlags := by
  intro s t noReset stepped changed
  rcases step_noReset_cases noReset stepped with
    ⟨-, rfl⟩ | ⟨running, below, i, u, fetched, effect, rfl⟩ | ⟨kept, -⟩
  · obtain ⟨flags, -⟩ := s.ready.startEdge_fields
    exact absurd (flags.trans s.ready_flags) changed
  · rcases effect.flags with kept | ⟨rA, rB, rfl, compared⟩
    · exact absurd (kept.trans s.ready_flags) changed
    · refine ⟨running, below, rA, rB, fetched, ?_⟩
      rw [State.retire_flags, compared, compareFlags_eq, s.ready_reg, s.ready_reg]
  · exact absurd kept changed

/-- Settles O18: a store of a retired PUSH or CALL, or a load in IDLE, and each of them at one address. -/
theorem onlyStoresAndLoadsChangeMemory : Obligations.OnlyStoresAndLoadsChangeMemory := by
  intro s t a noReset stepped changed
  rcases step_noReset_cases noReset stepped with
    ⟨-, rfl⟩ | ⟨running, -, i, u, fetched, effect, rfl⟩ | ⟨-, kept, -⟩
  · obtain ⟨-, mem, -⟩ := s.ready.startEdge_fields
    rw [mem] at changed
    rcases s.ready_mem_cases with kept | ⟨idle, load, inside, written⟩
    · exact absurd (by rw [kept]) changed
    · have addr : a = s.sample.pins.ldAddr.toNat := by
        by_contra other
        exact changed (by rw [written, Memory.read_write, if_neg other])
      exact .inr ⟨idle, load, addr, addr ▸ inside⟩
  · have notIdle : s.runState ≠ .idle := by simp [running]
    rcases effect.mem with kept | ⟨⟨r, pushOrCall⟩, inside, v, stored⟩
    · exact absurd (by rw [State.retire_mem, kept, s.ready_mem_not_idle notIdle]) changed
    · rw [s.ready_pushAddr notIdle, s.ready_memSize notIdle] at inside
      have addr : a = s.pushAddr.toNat := by
        by_contra other
        refine changed ?_
        rw [State.retire_mem, stored, s.ready_pushAddr notIdle, s.ready_mem_not_idle notIdle, Memory.read_write,
          if_neg other]
      have fetchedStore : s.fetch = .ok (.push (regByte r)) ∨ s.fetch = .ok (.call (regByte r)) := by
        rcases pushOrCall with rfl | rfl
        · exact .inl fetched
        · exact .inr fetched
      exact .inl ⟨running, addr, addr ▸ inside, r, fetchedStore⟩
  · exact absurd (by rw [kept]) changed

/-- Settles O19: of the retired effects only an accepted PRN's writes the trace. -/
theorem onlyAcceptedPrnExtendsTheTrace : Obligations.OnlyAcceptedPrnExtendsTheTrace := by
  intro s t noReset stepped changed
  rcases step_noReset_cases noReset stepped with
    ⟨-, rfl⟩ | ⟨running, -, i, u, fetched, effect, rfl⟩ | ⟨-, -, kept⟩
  · obtain ⟨-, -, trace⟩ := s.ready.startEdge_fields
    exact absurd (trace.trans s.ready_trace) changed
  · rcases effect.trace with kept | ⟨r, rfl, accepts, emitted, free⟩
    · exact absurd (kept.trans s.ready_trace) changed
    · refine ⟨running, s.ready_pins ▸ accepts, free, r, fetched, ?_⟩
      rw [State.retire_trace, emitted, s.ready_trace, s.ready_reg]
  · exact absurd kept changed

end Sys2Proof.Machine
end

section
/-! PROOFS. The instruction count of a step and of a run (40_engine.md R57, R60; 70_reset_and_hazards.md R105). -/

namespace Sys2Proof.Machine

/-- A retired instruction of a RUNNING core leaves it RUNNING or HALTED. -/
theorem Effect.runState_of_running {i : Instr} {s u : State} (effect : Effect i s u) (running : s.runState = .running) :
    u.runState = .running ∨ u.runState = .halted := by
  rw [effect.runState, running]
  split
  · exact .inr rfl
  · exact .inl rfl

/-- Settles O13: the ends of a RUNNING step one by one; only the retirement counts. -/
theorem onlyRetirementCounts : Obligations.OnlyRetirementCounts := by
  intro s t running noReset stepped
  have readyRunning : s.ready.runState = .running := s.ready_runState.trans running
  rcases step_running_cases running noReset stepped with
    ⟨-, rfl⟩ | ⟨-, c, op, -, rfl⟩ | ⟨-, i, fetched, ⟨kind, info, -, rfl⟩ | ⟨r, rfl, refuses, rfl⟩ | ⟨u, effect, rfl⟩⟩
  · exact ⟨fun _ => s.ready_icount, nofun, nofun⟩
  · exact ⟨fun _ => s.ready_icount, nofun, nofun⟩
  · exact ⟨fun _ => s.ready_icount, nofun, nofun⟩
  · exact ⟨fun _ => s.ready_icount, fun halted => by simp [running] at halted,
      fun _ => .inr ⟨rfl, refuses, r, fetched⟩⟩
  · have counted : u.retire.icount.toNat = min (s.icount.toNat + 1) 4294967295 := by
      rw [State.retire_icount, icountNext_toNat, effect.icount, s.ready_icount]
    refine ⟨fun faultedOrStopped => ?_, fun _ => counted, fun _ => .inl counted⟩
    rw [State.retire_runState] at faultedOrStopped
    rcases effect.runState_of_running readyRunning with stays | halts
    · simp [stays] at faultedOrStopped
    · simp [halts] at faultedOrStopped

/-- A RUNNING step leaves the host's levels as sampled. -/
theorem step_running_host {s t : State} (running : s.runState = .running) (noReset : s.sample.pins.rst = false)
    (stepped : step s = .next t) : t.pins = s.sample.pins ∧ t.inputs = s.sample.inputs := by
  rcases step_running_cases running noReset stepped with
    ⟨-, rfl⟩ | ⟨-, c, op, -, rfl⟩ | ⟨-, i, fetched, ⟨kind, info, -, rfl⟩ | ⟨r, rfl, refuses, rfl⟩ | ⟨u, effect, rfl⟩⟩
  · exact ⟨s.ready_pins, s.ready_inputs⟩
  · exact ⟨s.ready_pins, s.ready_inputs⟩
  · exact ⟨s.ready_pins, s.ready_inputs⟩
  · exact ⟨s.ready_pins, s.ready_inputs⟩
  · exact ⟨effect.pins.trans s.ready_pins, effect.inputs.trans s.ready_inputs⟩

/-! ### a host that accepts everything and asks for nothing -/

/-- The host drives the quiet levels at this edge and at every later one (log 4). -/
def State.QuietHost (s : State) : Prop := s.inputs = [] ∧ s.pins = Pins.quiet

theorem State.QuietHost.sample_pins {s : State} (quiet : s.QuietHost) : s.sample.pins = Pins.quiet := by
  obtain ⟨inputs, pins⟩ := quiet
  rw [s.sample_nil inputs, pins]

theorem State.QuietHost.noReset {s : State} (quiet : s.QuietHost) : s.sample.pins.rst = false := by
  rw [quiet.sample_pins]
  rfl

theorem State.QuietHost.ready_eq {s : State} (quiet : s.QuietHost) : s.ready = s := by
  rw [s.ready_of_no_load (by rw [quiet.sample_pins]; rfl), s.sample_nil quiet.1]

theorem State.QuietHost.step_running {s t : State} (quiet : s.QuietHost) (running : s.runState = .running)
    (stepped : step s = .next t) : t.QuietHost := by
  obtain ⟨pins, inputs⟩ := step_running_host running quiet.noReset stepped
  exact ⟨inputs.trans (by rw [s.sample_nil quiet.1, quiet.1]), pins.trans quiet.sample_pins⟩

/-- With a quiet host an ended core stays as it is. -/
theorem State.QuietHost.core_run_ended {s : State} (quiet : s.QuietHost) (notIdle : s.runState ≠ .idle)
    (notRunning : s.runState ≠ .running) (k : Nat) : Sys2Proof.core.run k s = .next s := by
  have stays : step s = .next s := by rw [step_terminal s quiet.noReset notIdle notRunning, quiet.ready_eq]
  induction k with
  | zero => rfl
  | succ k ih => rw [core_run_succ stays, ih]

/-- With a host that accepts, a step that leaves the core RUNNING or HALTED has retired an instruction. -/
theorem State.QuietHost.step_counts {s t : State} (quiet : s.QuietHost) (running : s.runState = .running)
    (room : s.icount.toNat < 4294967295) (stepped : step s = .next t)
    (unfaulted : t.runState = .running ∨ t.runState = .halted) : t.icount.toNat = s.icount.toNat + 1 := by
  obtain ⟨-, halted, stays⟩ := onlyRetirementCounts s t running quiet.noReset stepped
  have saturating : t.icount.toNat = min (s.icount.toNat + 1) 4294967295 := by
    rcases unfaulted with run | halt
    · rcases stays run with counted | ⟨-, refuses, -⟩
      · exact counted
      · simp [quiet.sample_pins, Pins.quiet] at refuses
    · exact halted halt
  omega

/-- Settles O14: by induction on the number of steps. Each step that leaves the core RUNNING counted one and passes the
rest of the run on; one that ends it leaves a state that stays, HALTED only after fetching HLT. -/
theorem runsRetireOneInstructionPerStep : Obligations.RunsRetireOneInstructionPerStep := by
  intro k
  induction k with
  | zero =>
    intro s t running inputs pins room ran
    obtain rfl : s = t := Host.Outcome.next.inj ((core_run_zero s).symm.trans ran)
    exact ⟨fun _ => rfl, fun halted => by simp [running] at halted⟩
  | succ k ih =>
    intro s t running inputs pins room ran
    have quiet : s.QuietHost := ⟨inputs, pins⟩
    obtain ⟨u, stepped⟩ := step_eq_next s
    have counts := quiet.step_counts running (by omega) stepped
    obtain ⟨notIdle, haltedIff, -⟩ := step_running_transitions running quiet.noReset stepped
    obtain ⟨inputsU, pinsU⟩ := quiet.step_running running stepped
    rw [core_run_succ stepped] at ran
    by_cases stays : u.runState = .running
    · have counted := counts (.inl stays)
      obtain ⟨retired, halts⟩ := ih u t stays inputsU pinsU (by omega) ran
      refine ⟨fun run => by have := retired run; omega, fun halted => ?_⟩
      obtain ⟨j, positive, le, retiredJ, v, ranV, fetchedV, ranT⟩ := halts halted
      refine ⟨j + 1, by omega, by omega, by omega, v, ?_, fetchedV, (core_run_succ stepped j).trans ranT⟩
      rw [← core_run_succ stepped, Nat.sub_add_cancel positive] at ranV
      exact ranV
    · have stuck : Sys2Proof.core.run k u = .next u := State.QuietHost.core_run_ended ⟨inputsU, pinsU⟩ notIdle stays k
      obtain rfl : u = t := Host.Outcome.next.inj (stuck.symm.trans ran)
      refine ⟨fun run => absurd run stays, fun halted => ?_⟩
      obtain ⟨-, fetched⟩ := haltedIff.mp halted
      exact ⟨1, le_refl 1, by omega, counts (.inr halted), s, core_run_zero s, fetched,
        (core_run_succ stepped 0).trans (core_run_zero u)⟩

end Sys2Proof.Machine
end

section
/-! PROOFS. A PRN held for any number of edges (40_engine.md R59). -/

namespace Sys2Proof.Machine

/-- A host that asks for nothing and does not accept. -/
def Pins.refusing : Pins := { Pins.quiet with outReady := false }

/-- The fetched PRN of a valid register, about to run. -/
structure State.AtPrn (s : State) (r : RegIx) : Prop where
  running : s.runState = .running
  below : s.limitReached = false
  fetched : s.fetch = .ok (.prn (regByte r))

/-- The state a refused PRN leaves: held, with the host's levels of that edge. -/
def State.heldWith (s : State) (rest : List Pins) : State :=
  { s with outPending := true, pins := Pins.refusing, inputs := rest }

/-- A held PRN is at the same PRN: fetch and the step limit read nothing that the hold changes. -/
theorem State.AtPrn.heldWith {s : State} {r : RegIx} (prn : s.AtPrn r) (rest : List Pins) :
    (s.heldWith rest).AtPrn r :=
  ⟨prn.running, (State.limitReached_congr s (s.heldWith rest) rfl rfl).trans prn.below,
    (State.fetch_congr s (s.heldWith rest) rfl rfl rfl).trans prn.fetched⟩

/-- An edge whose host asks for neither reset nor a load runs the PRN under that host. -/
theorem State.AtPrn.step_eq_exec {s : State} {r : RegIx} (prn : s.AtPrn r) {p : Pins} {rest : List Pins}
    (levels : s.inputs = p :: rest) (noReset : p.rst = false) (noLoad : p.ldWe = false) :
    step s = exec (.prn (regByte r)) { s with pins := p, inputs := rest } := by
  have sampled := s.sample_cons p rest levels
  rw [step_exec s (by rw [sampled]; exact noReset) prn.running prn.below _ prn.fetched,
    s.ready_of_no_load (by rw [sampled]; exact noLoad), sampled]

/-- One refused edge. -/
theorem State.AtPrn.step_refused {s : State} {r : RegIx} (prn : s.AtPrn r) {rest : List Pins}
    (levels : s.inputs = Pins.refusing :: rest) : step s = .next (s.heldWith rest) := by
  rw [prn.step_eq_exec levels rfl rfl, exec_prn_held r _ rfl]
  rfl

/-- The edge at which the host accepts. -/
theorem State.AtPrn.step_accepted {s : State} {r : RegIx} (prn : s.AtPrn r) (levels : s.inputs = [Pins.quiet]) :
    step s =
      .next (({ s with pins := Pins.quiet, inputs := [] }.emit (s.reg r)).setPc (s.pc + 2#9)).retire := by
  rw [prn.step_eq_exec levels rfl rfl, exec_prn_accepted r _ rfl]
  rfl

/-- Any number of refused edges holds like one. -/
theorem State.AtPrn.core_run_refused {s : State} {r : RegIx} (prn : s.AtPrn r) (k : Nat) {rest : List Pins}
    (levels : s.inputs = List.replicate (k + 1) Pins.refusing ++ rest) :
    Sys2Proof.core.run (k + 1) s = .next (s.heldWith rest) := by
  induction k generalizing s with
  | zero => exact (core_run_succ (prn.step_refused levels) 0).trans (core_run_zero _)
  | succ k ih => exact (core_run_succ (prn.step_refused levels) (k + 1)).trans (ih (prn.heldWith _) rfl)

/-- While a PRN is held its register is on `out_data` (42_system_data.md R70, log 10). -/
theorem State.AtPrn.outData_held {s : State} {r : RegIx} (prn : s.AtPrn r) (held : s.outPending = true) :
    s.outData = some (s.reg r) := by
  simp [State.outData, held, prn.fetched]

/-- Settles O33: the hold by induction over its edges, then the accepting edge. -/
theorem prnEmitsOnceAfterAnyHold : Obligations.PrnEmitsOnceAfterAnyHold := by
  intro k s r running below fetched levels
  have prn : s.AtPrn r := ⟨running, below, fetched⟩
  have held := prn.core_run_refused k levels
  have accepted := (prn.heldWith [Pins.quiet]).step_accepted rfl
  refine ⟨⟨_, held, rfl, (prn.heldWith _).outData_held rfl, rfl, rfl, rfl, running⟩,
    ⟨_, (core_run_add held 1).trans (core_run_succ accepted 0), rfl, rfl, rfl, icountNext_toNat s.icount⟩⟩

end Sys2Proof.Machine
end

section
/-! PROOFS. A stored byte is what the next step fetches (20_memory.md R36, 70_reset_and_hazards.md R104). -/

namespace Sys2Proof.Machine

/-- What a step that stores the byte `v` at `u8(SP - 1)` and goes on to `target` leaves. -/
structure Stored (s t : State) (v : Byte) (target : Nat) : Prop where
  running : t.runState = .running
  pc : t.pc.toNat = target
  mem : t.mem = s.mem.write s.pushAddr.toNat v
  params : t.params = s.params

section
variable {s : State} (running : s.runState = .running) (below : s.limitReached = false)
  (noReset : s.sample.pins.rst = false) (inside : s.pushAddr.toNat < s.memSize)
include running below noReset inside

/-- PUSH stores the register as it is after SP is decremented (43_stack.md R72). -/
theorem step_push_stored {r : RegIx} (fetched : s.fetch = .ok (.push (regByte r))) :
    ∃ t, step s = .next t ∧ Stored s t (if r = 7 then s.pushAddr else s.reg r) (s.pc.toNat + 2) := by
  have notIdle : s.runState ≠ .idle := by simp [running]
  have addr := s.ready_pushAddr notIdle
  have ran := step_exec s noReset running below _ fetched
  rw [exec_push r s.ready (by rwa [addr, s.ready_memSize notIdle]), addr, s.ready_reg,
    s.ready_mem_not_idle notIdle] at ran
  refine ⟨_, ran, s.ready_runState.trans running, ?_, rfl, s.ready_params⟩
  have := s.fetch_ok_pc _ fetched
  have := s.memSize_le
  simp only [State.retire_pc, State.setPc_pc, State.seqPc, s.ready_pc notIdle, BitVec.toNat_add, BitVec.toNat_ofNat]
  omega

/-- CALL stores its return address and jumps to the register as it is after SP is decremented (44_subroutine.md R74). -/
theorem step_call_stored {r : RegIx} {v : Byte} (fetched : s.fetch = .ok (.call (regByte r)))
    (returnAddr : v.toNat = s.pc.toNat + 2) :
    ∃ t, step s = .next t ∧ Stored s t v (if r = 7 then s.pushAddr else s.reg r).toNat := by
  have notIdle : s.runState ≠ .idle := by simp [running]
  have addr := s.ready_pushAddr notIdle
  have pc := s.ready_pc notIdle
  have fits := v.isLt
  have stored : u8 (s.pc.toNat + 2) = v := by
    apply BitVec.eq_of_toNat_eq
    rw [u8_toNat]
    omega
  have ran := step_exec s noReset running below _ fetched
  rw [exec_call r s.ready (by rw [pc]; omega) (by rwa [addr, s.ready_memSize notIdle]), addr, pc, stored, s.ready_reg,
    s.ready_mem_not_idle notIdle] at ran
  exact ⟨_, ran, s.ready_runState.trans running, zext9_toNat _, rfl, s.ready_params⟩

end

/-- Settles O27: both instructions leave the byte in its cell, and fetch reads every byte of the next instruction from
memory. -/
theorem nextFetchSeesThePushedByte : Obligations.NextFetchSeesThePushedByte := by
  intro s i r v target running below noReset fetched inside pushOrCall
  obtain ⟨t, stepped, stored⟩ : ∃ t, step s = .next t ∧ Stored s t v target := by
    rcases pushOrCall with ⟨rfl, rfl, rfl⟩ | ⟨rfl, returnAddr, rfl⟩
    · exact step_push_stored running below noReset inside fetched
    · exact step_call_stored running below noReset inside fetched returnAddr
  obtain ⟨runningT, pc, mem, params⟩ := stored
  have memSize : t.memSize = s.memSize := by rw [State.memSize, State.memSize, params]
  have cell : t.mem.read s.pushAddr.toNat = v := by simp [mem]
  refine ⟨t, stepped, runningT, pc, cell, fun atOpcode => ⟨fun illegal => ?illegal, fun o matched outside => ?operand⟩,
    fun o k matched whole le atByte => ?fetched⟩
  case illegal =>
    have opcode : t.mem.read t.pc.toNat = v := by rw [pc, ← atOpcode, cell]
    rw [t.fetch_of_illegal (by rw [pc, ← atOpcode, memSize]; exact inside) (by rwa [opcode]), opcode]
  case operand =>
    have opcode : t.mem.read t.pc.toNat = v := by rw [pc, ← atOpcode, cell]
    have faults := t.fetch_of_outside o (by rw [pc, ← atOpcode, memSize]; exact inside) (by rwa [opcode])
      (by rwa [pc, memSize])
    rwa [opcode] at faults
  case fetched =>
    obtain ⟨j, fetchedJ, op, bytes⟩ := t.fetch_of_inside o (by rwa [pc]) (by rwa [pc, memSize])
    have byte : (encode j)[k]? = some v := by rw [bytes k le, pc, ← atByte, cell]
    exact ⟨j, fetchedJ, op, byte, fun belowT noResetT => step_exec t noResetT runningT belowT j fetchedJ⟩

end Sys2Proof.Machine
end

section
/-! PROOFS. The state invariant: it holds after reset, and every edge keeps it (10_state.md sections 2, 3, 6 and 7,
40_engine.md R49). -/

namespace Sys2Proof.Machine

/-! ### reset -/

/-- After a reset edge, whatever the state before. -/
theorem State.resetEdge_inv (s : State) : s.resetEdge.Inv where
  memWf := Memory.nil_wf
  memBounded := nofun
  pcBound := Nat.zero_le 258
  flagsOk := rfl
  noFault _ := rfl
  faulted := nofun
  idle _ := ⟨rfl, rfl, rfl, rfl, rfl⟩
  held := nofun

/-- Settles O15: the reset state is what a reset edge leaves of itself. -/
theorem invariantHoldsAfterReset : Obligations.InvariantHoldsAfterReset := by
  intro p
  exact ⟨(State.resetWith p).resetEdge_inv, State.reset.resetEdge_inv⟩

/-! ### the parts of an edge without reset -/

/-- Sampling and the load port: a load keeps the canonical form, and fetch sees none of it outside IDLE. -/
theorem State.Inv.ready {s : State} (inv : s.Inv) : s.ready.Inv where
  memWf := by
    rcases s.ready_mem_cases with kept | ⟨-, -, -, written⟩
    · rw [kept]
      exact inv.memWf
    · rw [written]
      exact Memory.write_wf _ _ _ inv.memWf
  memBounded := by
    rw [State.memSize, s.ready_params]
    rcases s.ready_mem_cases with kept | ⟨-, -, inside, written⟩
    · rw [kept]
      exact inv.memBounded
    · rw [written]
      exact Memory.write_bounded _ _ _ _ inside inv.memBounded
  pcBound := by simpa using inv.pcBound
  flagsOk := by simpa using inv.flagsOk
  noFault := by simpa using inv.noFault
  faulted := by simpa using inv.faulted
  idle := by simpa using inv.idle
  held pending := by
    obtain ⟨running, below, r, fetched⟩ := inv.held (by simpa using pending)
    have notIdle : s.runState ≠ .idle := by simp [running]
    exact ⟨by simpa using running, (s.ready_limitReached notIdle).trans below, r,
      (s.ready_fetch notIdle).trans fetched⟩

/-- The start edge of an IDLE core. -/
theorem State.Inv.startEdge {s : State} (inv : s.Inv) (idle : s.runState = .idle) : s.startEdge.Inv := by
  unfold State.startEdge
  split
  next =>
    exact {
      memWf := inv.memWf
      memBounded := inv.memBounded
      pcBound := inv.pcBound
      flagsOk := inv.flagsOk
      noFault := fun _ => inv.noFault (by simp [idle])
      faulted := nofun
      idle := nofun
      held := fun pending => by
        obtain ⟨running, -⟩ := inv.held pending
        simp [idle] at running }
  next => exact inv

/-- The stop at the step limit. -/
theorem State.Inv.setRun_stopped {s : State} (inv : s.Inv) (running : s.runState = .running)
    (free : s.outPending = false) : (s.setRun .stopped).Inv where
  memWf := inv.memWf
  memBounded := inv.memBounded
  pcBound := inv.pcBound
  flagsOk := inv.flagsOk
  noFault _ := inv.noFault (by simp [running])
  faulted := nofun
  idle := nofun
  held pending := by simp [free] at pending

/-- A fault entered. -/
theorem State.Inv.raise {s : State} (inv : s.Inv) (c : FaultCause) (op : Byte) (free : s.outPending = false) :
    (s.raise c op).Inv where
  memWf := inv.memWf
  memBounded := inv.memBounded
  pcBound := inv.pcBound
  flagsOk := inv.flagsOk
  noFault unfaulted := absurd rfl unfaulted
  faulted _ := ⟨c.record_code_ne_zero s.pc op, c.record_pc s.pc op⟩
  idle := nofun
  held pending := by simp [free] at pending

/-- A PRN held. -/
theorem State.Inv.hold {s : State} {r : RegIx} (inv : s.Inv) (prn : s.AtPrn r) : s.hold.Inv where
  memWf := inv.memWf
  memBounded := inv.memBounded
  pcBound := inv.pcBound
  flagsOk := inv.flagsOk
  noFault := inv.noFault
  faulted := inv.faulted
  idle := inv.idle
  held _ := ⟨prn.running, (State.limitReached_congr s s.hold rfl rfl).trans prn.below, r,
    (State.fetch_congr s s.hold rfl rfl rfl).trans prn.fetched⟩

/-! ### a retired instruction -/

theorem Op.length_le (o : Op) : o.length ≤ 3 := by cases o <;> decide

/-- A comparison sets one flag only (41_alu.md R66). -/
theorem compareFlags_atMostOne (a b : Byte) : (compareFlags a b).atMostOne = true := by
  unfold compareFlags
  split <;> [skip; split] <;> rfl

/-- The next pc is at most three past a pc in memory, or a byte (10_state.md R12). -/
theorem Effect.pcBound {i : Instr} {s u : State} (effect : Effect i s u) (inside : s.pc.toNat < s.memSize) :
    u.pc.toNat ≤ 258 := by
  rcases effect.pc with sequential | ⟨b, jumped⟩
  · have length := Op.length_le i.op
    have size := s.memSize_le
    rw [sequential, BitVec.toNat_add, BitVec.toNat_ofNat]
    omega
  · have byte := b.isLt
    rw [jumped, zext9_toNat]
    omega

theorem Effect.flagsOk {i : Instr} {s u : State} (effect : Effect i s u) (flagsOk : s.flags.atMostOne = true) :
    u.flags.atMostOne = true := by
  rcases effect.flags with kept | ⟨rA, rB, -, compared⟩
  · rwa [kept]
  · rw [compared]
    exact compareFlags_atMostOne _ _

theorem Effect.memWf {i : Instr} {s u : State} (effect : Effect i s u) (memWf : s.mem.wf) : u.mem.wf := by
  rcases effect.mem with kept | ⟨-, -, v, stored⟩
  · rwa [kept]
  · rw [stored]
    exact Memory.write_wf _ _ _ memWf

theorem Effect.memBounded {i : Instr} {s u : State} (effect : Effect i s u) (bounded : ∀ c ∈ s.mem, c.1 < s.memSize) :
    ∀ c ∈ u.mem, c.1 < u.memSize := by
  rw [State.memSize, effect.params]
  rcases effect.mem with kept | ⟨-, inside, v, stored⟩
  · rw [kept]
    exact bounded
  · rw [stored]
    exact Memory.write_bounded _ _ _ _ inside bounded

/-- A retired effect of the fetched instruction. Only a PRN could have been held, and it is no longer. -/
theorem State.Inv.retire {s u : State} {i : Instr} (inv : s.Inv) (running : s.runState = .running)
    (fetched : s.fetch = .ok i) (effect : Effect i s u) : u.retire.Inv where
  memWf := effect.memWf inv.memWf
  memBounded := effect.memBounded inv.memBounded
  pcBound := effect.pcBound (s.fetch_ok_pc i fetched)
  flagsOk := effect.flagsOk inv.flagsOk
  noFault _ := effect.fault.trans (inv.noFault (by simp [running]))
  faulted faulted := by rcases effect.runState_of_running running with run | run <;> simp [run] at faulted
  idle idle := by rcases effect.runState_of_running running with run | run <;> simp [run] at idle
  held pending := by
    rw [State.retire_outPending] at pending
    rcases effect.outPending with ⟨kept, notPrn⟩ | free
    · obtain ⟨-, -, r, prn⟩ := inv.held (kept.symm.trans pending)
      rw [fetched] at prn
      exact absurd (Except.ok.inj prn) (notPrn (regByte r))
    · simp [free] at pending

/-! ### the step -/

/-- A PRN of a valid register neither faults nor stops: it is emitted or held (40_engine.md R59). -/
theorem State.AtPrn.stays_running {s t : State} {r : RegIx} (prn : s.AtPrn r) (noReset : s.sample.pins.rst = false)
    (stepped : step s = .next t) : t.runState = .running := by
  rw [step_exec s noReset prn.running prn.below _ prn.fetched] at stepped
  have readyRunning : s.ready.runState = .running := s.ready_runState.trans prn.running
  cases acceptance : s.ready.pins.outReady with
  | true =>
    rw [exec_prn_accepted r s.ready acceptance] at stepped
    cases stepped
    exact readyRunning
  | false =>
    rw [exec_prn_held r s.ready acceptance] at stepped
    cases stepped
    exact readyRunning

/-- So a step without reset that leaves the core not RUNNING began with no PRN held. -/
theorem State.Inv.free_of_leaves_running {s t : State} (inv : s.Inv) (noReset : s.sample.pins.rst = false)
    (stepped : step s = .next t) (leaves : t.runState ≠ .running) : s.outPending = false := by
  by_contra pending
  obtain ⟨running, below, r, fetched⟩ := inv.held (by simpa using pending)
  exact leaves (State.AtPrn.stays_running ⟨running, below, fetched⟩ noReset stepped)

/-- A RUNNING step without reset: the stop, a fault of fetch, a fault of the instruction, a hold, or a retirement. -/
theorem State.Inv.step_running {s t : State} (inv : s.Inv) (running : s.runState = .running)
    (noReset : s.sample.pins.rst = false) (stepped : step s = .next t) : t.Inv := by
  have notIdle : s.runState ≠ .idle := by simp [running]
  have readyRunning : s.ready.runState = .running := s.ready_runState.trans running
  have free (leaves : t.runState ≠ .running) : s.ready.outPending = false :=
    s.ready_outPending.trans (inv.free_of_leaves_running noReset stepped leaves)
  rcases step_running_cases running noReset stepped with
    ⟨-, rfl⟩ | ⟨-, c, op, -, rfl⟩ |
      ⟨below, i, fetched, ⟨kind, info, -, rfl⟩ | ⟨r, rfl, -, rfl⟩ | ⟨u, effect, rfl⟩⟩
  · exact inv.ready.setRun_stopped readyRunning (free nofun)
  · exact inv.ready.raise c op (free nofun)
  · exact inv.ready.raise _ _ (free nofun)
  · exact inv.ready.hold ⟨readyRunning, (s.ready_limitReached notIdle).trans below,
      (s.ready_fetch notIdle).trans fetched⟩
  · exact inv.ready.retire readyRunning ((s.ready_fetch notIdle).trans fetched) effect

/-- Settles O16: the reset edge, the start edge, the RUNNING step, and the edge of an ended run. -/
theorem everyStepKeepsTheInvariant : Obligations.EveryStepKeepsTheInvariant := by
  intro s inv
  obtain ⟨t, stepped⟩ := step_eq_next s
  refine ⟨t, stepped, ?_⟩
  rcases Bool.eq_false_or_eq_true s.sample.pins.rst with reset | noReset
  · rw [step_reset s reset] at stepped
    cases stepped
    exact s.sample.resetEdge_inv
  by_cases idle : s.runState = .idle
  · rw [step_idle s noReset idle] at stepped
    cases stepped
    exact inv.ready.startEdge (s.ready_runState.trans idle)
  by_cases running : s.runState = .running
  · exact inv.step_running running noReset stepped
  · rw [step_terminal s noReset idle running] at stepped
    cases stepped
    exact inv.ready

end Sys2Proof.Machine
end

section
/-! PROOFS. No program can see the bookkeeping (10_state.md R13, R20, R23): up to what `State.visible` erases, every
operation of the core answers the same from a state and from its visible part. -/

namespace Sys2Proof.Machine

/-! ### the handlers -/

/-- The handler's visible result depends on the visible part of the state only. -/
def SeesVisible (handler : State → Except FaultCause State) : Prop :=
  ∀ s : State, (handler s.visible).map State.visible = (handler s).map State.visible

/-- A handler that first decodes its register operand sees no more than what it goes on to do. -/
theorem SeesVisible.regIndex_bind (r : Byte) {rest : RegIx → State → Except FaultCause State}
    (sees : ∀ i, SeesVisible (rest i)) : SeesVisible (fun s => regIndex r >>= (rest · s)) := by
  intro s
  cases regIndex r with
  | error c => rfl
  | ok i => exact sees i s

/-- A store and what follows it without a fault, from two states with one memory. -/
theorem memWrite_bind_visible {s s' : State} (sameMem : s'.mem = s.mem) (sameSize : s'.memSize = s.memSize)
    (kind : AccessKind) (a : Nat) (v : Byte) {finish finish' : State → State}
    (finished : (finish' (s'.setMem (s.mem.write a v))).visible = (finish (s.setMem (s.mem.write a v))).visible) :
    (s'.memWrite kind a v >>= fun t => pure (finish' t)).map State.visible =
      (s.memWrite kind a v >>= fun t => pure (finish t)).map State.visible := by
  rcases Nat.lt_or_ge a s.memSize with inside | outside
  · rw [s.memWrite_ok kind a v inside, s'.memWrite_ok kind a v (by rwa [sameSize]), sameMem]
    exact congrArg Except.ok finished
  · rw [s.memWrite_error kind a v outside, s'.memWrite_error kind a v (by rwa [sameSize])]
    rfl

/-- The load that POP and RET begin with. -/
theorem State.memRead_sp_visible (s : State) :
    s.visible.memRead .stack s.visible.sp.toNat = s.memRead .stack s.sp.toNat := rfl

theorem aluHandler_seesVisible (sel : BitVec 2) (rA rB : Byte) : SeesVisible (aluHandler sel rA rB) := by
  refine .regIndex_bind rA fun iA => .regIndex_bind rB fun iB s => ?_
  have sameOut : alu sel (s.visible.reg iA) (s.visible.reg iB) = alu sel (s.reg iA) (s.reg iB) := rfl
  rw [sameOut]
  rcases alu sel (s.reg iA) (s.reg iB) with c | (v | f) <;> rfl

/-- A jump reads E, which is visible, and neither L nor G. -/
theorem jumpHandler_seesVisible (j : Jump) (r : Byte) : SeesVisible (jumpHandler j r) := by
  refine .regIndex_bind r fun i s => ?_
  rw [j.taken_congr (f := s.flags) (f' := s.visible.flags) rfl]
  rfl

theorem ldiHandler_seesVisible (r imm : Byte) : SeesVisible (ldiHandler r imm) :=
  .regIndex_bind r fun _ _ => rfl

theorem pushHandler_seesVisible (r : Byte) : SeesVisible (pushHandler r) :=
  .regIndex_bind r fun _ s =>
    memWrite_bind_visible (s := s.setSp s.pushAddr) (s' := s.visible.setSp s.visible.pushAddr) rfl rfl _ _ _ rfl

theorem popHandler_seesVisible (r : Byte) : SeesVisible (popHandler r) := by
  refine .regIndex_bind r fun i s => ?_
  rw [s.memRead_sp_visible]
  cases s.memRead .stack s.sp.toNat <;> rfl

theorem callHandler_seesVisible (r : Byte) : SeesVisible (callHandler r) := by
  refine .regIndex_bind r fun i s => ?_
  have sameReturn : s.visible.returnAddr = s.returnAddr := rfl
  rw [sameReturn]
  by_cases past : 255 < s.returnAddr
  · rw [if_pos past, if_pos past]
    rfl
  · rw [if_neg past, if_neg past]
    exact memWrite_bind_visible (s := s.setSp s.pushAddr) (s' := s.visible.setSp s.visible.pushAddr) rfl rfl _ _ _ rfl

theorem retHandler_seesVisible : SeesVisible retHandler := by
  intro s
  rw [retHandler, retHandler, s.memRead_sp_visible]
  cases s.memRead .stack s.sp.toNat <;> rfl

/-! ### the instructions -/

/-- Commit erases nothing visible: a handler's visible fault or state is the instruction's. -/
theorem complete_visible {handler : State → Except FaultCause State} (sees : SeesVisible handler) (o : Op) (s : State) :
    mapNext State.visible (complete o s.visible (handler s.visible)) =
      mapNext State.visible (complete o s (handler s)) := by
  have same := sees s
  generalize handler s.visible = seen, handler s = real at same ⊢
  rcases seen with c' | t' <;> rcases real with c | t
  · obtain rfl : c' = c := Except.error.inj same
    rfl
  · cases same
  · cases same
  · have visible : t'.visible = t.visible := Except.ok.inj same
    exact congrArg Host.Outcome.next visible

/-- PRN's register, the host's acceptance and the hold are visible; the trace is not. -/
theorem exec_prn_visible (r : Byte) (s : State) :
    mapNext State.visible (exec (.prn r) s.visible) = mapNext State.visible (exec (.prn r) s) := by
  rcases regIndex_cases r with ⟨i, rfl⟩ | ⟨bad, -⟩
  · cases acceptance : s.pins.outReady with
    | true =>
      rw [exec_prn_accepted i s acceptance, exec_prn_accepted i s.visible acceptance]
      rfl
    | false =>
      rw [exec_prn_held i s acceptance, exec_prn_held i s.visible acceptance]
      rfl
  · rw [exec_first_bad_register (.prn r) s [] r [] rfl nofun bad,
      exec_first_bad_register (.prn r) s.visible [] r [] rfl nofun bad]
    rfl

/-- What an instruction leaves visible depends on the visible part of the state only. -/
theorem exec_visible (i : Instr) (s : State) :
    mapNext State.visible (exec i s.visible) = mapNext State.visible (exec i s) := by
  cases i with
  | hlt => rfl
  | ldi r imm => exact complete_visible (ldiHandler_seesVisible r imm) .ldi s
  | prn r => exact exec_prn_visible r s
  | mul rA rB => exact complete_visible (aluHandler_seesVisible _ rA rB) .mul s
  | add rA rB => exact complete_visible (aluHandler_seesVisible _ rA rB) .add s
  | push r => exact complete_visible (pushHandler_seesVisible r) .push s
  | pop r => exact complete_visible (popHandler_seesVisible r) .pop s
  | call r => exact complete_visible (callHandler_seesVisible r) .call s
  | ret => exact complete_visible retHandler_seesVisible .ret s
  | cmp rA rB => exact complete_visible (aluHandler_seesVisible _ rA rB) .cmp s
  | jeq r => exact complete_visible (jumpHandler_seesVisible .ifEqual r) .jeq s
  | jne r => exact complete_visible (jumpHandler_seesVisible .ifNotEqual r) .jne s
  | jmp r => exact complete_visible (jumpHandler_seesVisible .always r) .jmp s

/-! ### the step -/

/-- Without a step limit the cycle does not read `icount`. -/
theorem State.cycle_visible (s : State) (noLimit : s.params.stepLimit = none) :
    mapNext State.visible s.visible.cycle = mapNext State.visible s.cycle := by
  have unlimited : s.limitReached = false := by rw [State.limitReached, noLimit]
  have noLimit' : s.visible.params.stepLimit = none := noLimit
  have unlimited' : s.visible.limitReached = false := by rw [State.limitReached, noLimit']
  have sameFetch : s.visible.fetch = s.fetch := State.fetch_congr _ _ rfl rfl rfl
  rw [State.cycle, State.cycle, unlimited, unlimited', sameFetch]
  cases s.fetch with
  | error fault => rfl
  | ok i => exact exec_visible i s

theorem State.startEdge_visible (s : State) : s.visible.startEdge.visible = s.startEdge.visible := by
  have sameStart : s.visible.pins.start = s.pins.start := rfl
  rw [State.startEdge, State.startEdge, sameStart]
  cases s.pins.start <;> rfl

theorem State.advance_visible (s : State) (noLimit : s.params.stepLimit = none) :
    mapNext State.visible s.visible.advance = mapNext State.visible s.advance := by
  have sameRun : s.visible.runState = s.runState := rfl
  rw [State.advance, State.advance, sameRun]
  cases s.runState with
  | idle => exact congrArg Host.Outcome.next s.startEdge_visible
  | running => exact s.cycle_visible noLimit
  | halted | faulted | stopped => rfl

theorem State.loadPort_visible (s : State) : s.visible.loadPort.visible = s.loadPort.visible := by
  have sameLoad : s.visible.pins.ldWe = s.pins.ldWe := rfl
  rw [State.loadPort, State.loadPort, sameLoad]
  cases s.pins.ldWe with
  | false => rfl
  | true =>
    by_cases cell : s.runState = .idle ∧ s.pins.ldAddr.toNat < s.memSize
    · have cell' : s.visible.runState = .idle ∧ s.visible.pins.ldAddr.toNat < s.visible.memSize := cell
      rw [if_pos rfl, if_pos rfl, if_pos cell, if_pos cell']
      rfl
    · have cell' : ¬ (s.visible.runState = .idle ∧ s.visible.pins.ldAddr.toNat < s.visible.memSize) := cell
      rw [if_pos rfl, if_pos rfl, if_neg cell, if_neg cell']
      rfl

theorem State.loadPort_params (s : State) : s.loadPort.params = s.params := by
  unfold State.loadPort
  split <;> [split; skip] <;> rfl

theorem State.sample_visible (s : State) : s.visible.sample = s.sample.visible := by
  have sameInputs : s.visible.inputs = s.inputs := rfl
  rw [State.sample, State.sample, sameInputs]
  cases s.inputs <;> rfl

/-- The load port sets `ld_err` from the load alone, so serving a state and serving its visible part hand the core
states that look alike. -/
theorem State.edge_visible (s : State) (noLimit : s.params.stepLimit = none) :
    mapNext State.visible s.visible.edge = mapNext State.visible s.edge := by
  have sameReset : s.visible.pins.rst = s.pins.rst := rfl
  rw [State.edge, State.edge, sameReset]
  cases s.pins.rst with
  | true => rfl
  | false =>
    have noLimitServed : s.loadPort.params.stepLimit = none := by rwa [s.loadPort_params]
    have noLimitServed' : s.visible.loadPort.params.stepLimit = none := by rwa [s.visible.loadPort_params]
    calc mapNext State.visible s.visible.loadPort.advance
        = mapNext State.visible s.visible.loadPort.visible.advance :=
          (s.visible.loadPort.advance_visible noLimitServed').symm
      _ = mapNext State.visible s.loadPort.visible.advance := by rw [s.loadPort_visible]
      _ = mapNext State.visible s.loadPort.advance := s.loadPort.advance_visible noLimitServed

/-- Without a step limit, what a step leaves visible depends on the visible part of the state only. -/
theorem step_visible (s : State) (noLimit : s.params.stepLimit = none) :
    mapNext State.visible (step s.visible) = mapNext State.visible (step s) := by
  rw [step, step, s.sample_visible]
  exact s.sample.edge_visible (by rwa [s.sample_params])

/-- Settles O20: both steps look like the step of the one visible part. -/
theorem programsCannotSeeTheBookkeeping : Obligations.ProgramsCannotSeeTheBookkeeping := by
  intro s u noLimit alike
  have sameParams : s.params = u.params := (congrArg State.params alike :)
  obtain ⟨s', stepped⟩ := step_eq_next s
  obtain ⟨u', steppedU⟩ := step_eq_next u
  have look : mapNext State.visible (step s) = mapNext State.visible (step u) := by
    rw [← step_visible s noLimit, ← step_visible u (sameParams ▸ noLimit), alike]
  rw [stepped, steppedU] at look
  exact ⟨s', u', stepped, steppedU, Host.Outcome.next.inj look⟩

end Sys2Proof.Machine
end
